-- ==== Sys2Proof/Word.lean ====
section
/-! DEFINITION. The word types of the machine (10_state.md R12, R15, R16; 30_encoding.md R54): a Byte is 8 bits, a Word16
is 16 bits, and the fields of an instruction word are 4, 8 or 12 bits wide. -/

namespace Sys2Proof

/-- A Byte of R7: an 8-bit unsigned value. -/
abbrev Byte := BitVec 8

/-- A Word16 of R7: a 16-bit unsigned value (I, PC, a return address, an instruction word). -/
abbrev Word := BitVec 16

/-- The name of a general register, as the 4-bit field x or y gives it (R12: every index 0..15 is valid). -/
abbrev Reg := BitVec 4

/-- The 4-bit field n of an instruction word (R54). -/
abbrev Nibble := BitVec 4

/-- The 12-bit field nnn of an instruction word (R54). -/
abbrev Addr12 := BitVec 12

end Sys2Proof
end

