-- ==== Sys2Proof/Syntax.lean ====
section
/-! DEFINITION. The instructions: one constructor per row of spec/opcode_table.json, with the fields of 30_encoding.md R54 that
its format (R57) has. A field the hardware ignores is kept as an operand (the low nibble of 5xyN and 9xyN, R64; y of 8xy6 and
8xyE, R92 and R94), so that an instruction and its word determine each other (log 23). -/

namespace Sys2Proof

/-- The 35 instructions of the opcode table. -/
inductive Instr where
  /-- SYS nnn, 0nnn but 00E0 and 00EE (R73): the class the source leaves unrecognized; runs as a no-op. -/
  | sys (nnn : Addr12)
  /-- CLS, 00E0 (R103). -/
  | cls
  /-- RET, 00EE (R76). -/
  | ret
  /-- JP nnn, 1nnn (R74). -/
  | jp (nnn : Addr12)
  /-- CALL nnn, 2nnn (R75). -/
  | call (nnn : Addr12)
  /-- SE Vx, kk, 3xkk (R77). -/
  | seByte (x : Reg) (kk : Byte)
  /-- SNE Vx, kk, 4xkk (R78). -/
  | sneByte (x : Reg) (kk : Byte)
  /-- SE Vx, Vy, 5xyN (R79); the nibble n is ignored. -/
  | seReg (x y : Reg) (n : Nibble)
  /-- LD Vx, kk, 6xkk (R84). -/
  | ldByte (x : Reg) (kk : Byte)
  /-- ADD Vx, kk, 7xkk (R85). -/
  | addByte (x : Reg) (kk : Byte)
  /-- LD Vx, Vy, 8xy0 (R86). -/
  | ldReg (x y : Reg)
  /-- OR Vx, Vy, 8xy1 (R87). -/
  | orReg (x y : Reg)
  /-- AND Vx, Vy, 8xy2 (R88). -/
  | andReg (x y : Reg)
  /-- XOR Vx, Vy, 8xy3 (R89). -/
  | xorReg (x y : Reg)
  /-- ADD Vx, Vy, 8xy4 (R90). -/
  | addReg (x y : Reg)
  /-- SUB Vx, Vy, 8xy5 (R91). -/
  | subReg (x y : Reg)
  /-- SHR Vx, 8xy6 (R92); y is ignored. -/
  | shr (x y : Reg)
  /-- SUBN Vx, Vy, 8xy7 (R93). -/
  | subnReg (x y : Reg)
  /-- SHL Vx, 8xyE (R94); y is ignored. -/
  | shl (x y : Reg)
  /-- SNE Vx, Vy, 9xyN (R80); the nibble n is ignored. -/
  | sneReg (x y : Reg) (n : Nibble)
  /-- LD I, nnn, Annn (R96). -/
  | ldI (nnn : Addr12)
  /-- JP V0, nnn, Bnnn (R81). -/
  | jpV0 (nnn : Addr12)
  /-- RND Vx, kk, Cxkk (R95). -/
  | rnd (x : Reg) (kk : Byte)
  /-- DRW Vx, Vy, n, Dxyn (R105). -/
  | drw (x y : Reg) (n : Nibble)
  /-- SKP Vx, Ex9E (R108). -/
  | skp (x : Reg)
  /-- SKNP Vx, ExA1 (R109). -/
  | sknp (x : Reg)
  /-- LD Vx, DT, Fx07 (R111). -/
  | ldVxDt (x : Reg)
  /-- LD Vx, K, Fx0A (R110). -/
  | ldVxK (x : Reg)
  /-- LD DT, Vx, Fx15 (R112). -/
  | ldDtVx (x : Reg)
  /-- LD ST, Vx, Fx18 (R113). -/
  | ldStVx (x : Reg)
  /-- ADD I, Vx, Fx1E (R97). -/
  | addI (x : Reg)
  /-- LD F, Vx, Fx29 (R98). -/
  | ldF (x : Reg)
  /-- LD B, Vx, Fx33 (R99). -/
  | ldB (x : Reg)
  /-- LD [I], Vx, Fx55 (R100). -/
  | storeRegs (x : Reg)
  /-- LD Vx, [I], Fx65 (R101). -/
  | loadRegs (x : Reg)
  deriving DecidableEq, Repr

end Sys2Proof
end

