-- ==== Sys2Proof/Decode.lean ====
section
/-! DEFINITION. The decoder of 30_encoding.md R58 to R65, total on every word and every list of bytes, rejecting by name; the
encoder, written from the same tables; and decodeTableWord, the host's view of the decoder. -/

namespace Sys2Proof

/-- Why a word is `Unrecognized` (R65) although it is not in the SYS class, one name per bullet of R65. The step runs such a word
as the no-op of R69; the name is a diagnosis only. -/
inductive Unrecognized where
  /-- 8xyN for N in 8..D and F (R61). -/
  | noFamily8Function
  /-- ExKK for KK other than 9E and A1 (R62). -/
  | noFamilyEFunction
  /-- FxKK for KK outside R63's table. -/
  | noFamilyFFunction
  deriving DecidableEq, Repr

/-- Why a list of bytes does not decode. -/
inductive DecodeError where
  /-- Fewer than two bytes are left (R56: "A decoder always consumes 2 bytes"). -/
  | truncated
  /-- The word is `Unrecognized` (R65). -/
  | unrecognized (u : Unrecognized)
  deriving DecidableEq, Repr

/-- Field op = w[15:12] (R54). -/
def fieldOp (w : Word) : Nibble := w.extractLsb' 12 4

/-- Field x = w[11:8] (R54). -/
def fieldX (w : Word) : Reg := w.extractLsb' 8 4

/-- Field y = w[7:4] (R54). -/
def fieldY (w : Word) : Reg := w.extractLsb' 4 4

/-- Field n = w[3:0] (R54). -/
def fieldN (w : Word) : Nibble := w.extractLsb' 0 4

/-- Field kk = w[7:0] (R54). -/
def fieldKK (w : Word) : Byte := w.extractLsb' 0 8

/-- Field nnn = w[11:0] (R54). -/
def fieldNNN (w : Word) : Addr12 := w.extractLsb' 0 12

/-- Family 0 (R60): the whole word selects; every word but 00E0 and 00EE is in the SYS class (R73). -/
def decodeFamily0 (w : Word) : Except Unrecognized Instr :=
  if w = 0x00E0#16 then .ok .cls
  else if w = 0x00EE#16 then .ok .ret
  else .ok (.sys (fieldNNN w))

/-- Family 8 (R61): the low nibble selects. -/
def decodeFamily8 (w : Word) : Except Unrecognized Instr :=
  match fieldN w with
  | 0x0#4 => .ok (.ldReg (fieldX w) (fieldY w))
  | 0x1#4 => .ok (.orReg (fieldX w) (fieldY w))
  | 0x2#4 => .ok (.andReg (fieldX w) (fieldY w))
  | 0x3#4 => .ok (.xorReg (fieldX w) (fieldY w))
  | 0x4#4 => .ok (.addReg (fieldX w) (fieldY w))
  | 0x5#4 => .ok (.subReg (fieldX w) (fieldY w))
  | 0x6#4 => .ok (.shr (fieldX w) (fieldY w))
  | 0x7#4 => .ok (.subnReg (fieldX w) (fieldY w))
  | 0xE#4 => .ok (.shl (fieldX w) (fieldY w))
  | _ => .error .noFamily8Function

/-- Family E (R62): the low byte selects. -/
def decodeFamilyE (w : Word) : Except Unrecognized Instr :=
  match fieldKK w with
  | 0x9E#8 => .ok (.skp (fieldX w))
  | 0xA1#8 => .ok (.sknp (fieldX w))
  | _ => .error .noFamilyEFunction

/-- Family F (R63): the low byte selects. -/
def decodeFamilyF (w : Word) : Except Unrecognized Instr :=
  match fieldKK w with
  | 0x07#8 => .ok (.ldVxDt (fieldX w))
  | 0x0A#8 => .ok (.ldVxK (fieldX w))
  | 0x15#8 => .ok (.ldDtVx (fieldX w))
  | 0x18#8 => .ok (.ldStVx (fieldX w))
  | 0x1E#8 => .ok (.addI (fieldX w))
  | 0x29#8 => .ok (.ldF (fieldX w))
  | 0x33#8 => .ok (.ldB (fieldX w))
  | 0x55#8 => .ok (.storeRegs (fieldX w))
  | 0x65#8 => .ok (.loadRegs (fieldX w))
  | _ => .error .noFamilyFFunction

/-- `Decode(w)` (R58, R59): the high nibble selects the family. It depends on the word alone (R70). The SYS class is answered as
the table's own row (log 4); the words of no row are rejected by name. -/
def decode (w : Word) : Except Unrecognized Instr :=
  match fieldOp w with
  | 0x0#4 => decodeFamily0 w
  | 0x1#4 => .ok (.jp (fieldNNN w))
  | 0x2#4 => .ok (.call (fieldNNN w))
  | 0x3#4 => .ok (.seByte (fieldX w) (fieldKK w))
  | 0x4#4 => .ok (.sneByte (fieldX w) (fieldKK w))
  | 0x5#4 => .ok (.seReg (fieldX w) (fieldY w) (fieldN w))
  | 0x6#4 => .ok (.ldByte (fieldX w) (fieldKK w))
  | 0x7#4 => .ok (.addByte (fieldX w) (fieldKK w))
  | 0x8#4 => decodeFamily8 w
  | 0x9#4 => .ok (.sneReg (fieldX w) (fieldY w) (fieldN w))
  | 0xA#4 => .ok (.ldI (fieldNNN w))
  | 0xB#4 => .ok (.jpV0 (fieldNNN w))
  | 0xC#4 => .ok (.rnd (fieldX w) (fieldKK w))
  | 0xD#4 => .ok (.drw (fieldX w) (fieldY w) (fieldN w))
  | 0xE#4 => decodeFamilyE w
  | _ => decodeFamilyF w

/-- The word two bytes make, the first the more significant (20_memory.md R39, R43: `high_byte << 8 | low_byte`). -/
def wordOfBytes (hi lo : Byte) : Word := hi ++ lo

/-- The byte at the lower address: bits 15:8 (R43). -/
def hiByte (w : Word) : Byte := w.extractLsb' 8 8

/-- The byte at the higher address: bits 7:0 (R43). -/
def loByte (w : Word) : Byte := w.extractLsb' 0 8

/-- The decoder over bytes: an instruction is exactly two bytes (R56), the rest is handed back. -/
def decodeBytes : List Byte → Except DecodeError (Instr × List Byte)
  | hi :: lo :: rest =>
    match decode (wordOfBytes hi lo) with
    | .ok i => .ok (i, rest)
    | .error u => .error (.unrecognized u)
  | _ => .error .truncated

/-- Format NNN (R57). -/
def formatNNN (op : Nibble) (nnn : Addr12) : Word := op ++ nnn

/-- Format XKK (R57). -/
def formatXKK (op : Nibble) (x : Reg) (kk : Byte) : Word := op ++ (x ++ kk)

/-- Formats XY, XYF and XYN (R57): two registers and a nibble. -/
def formatXYN (op : Nibble) (x y : Reg) (n : Nibble) : Word := op ++ (x ++ (y ++ n))

/-- The word of an instruction, from the encodings of R57 and R59 to R63. -/
def encode : Instr → Word
  | .sys nnn => formatNNN 0x0#4 nnn
  | .cls => 0x00E0#16
  | .ret => 0x00EE#16
  | .jp nnn => formatNNN 0x1#4 nnn
  | .call nnn => formatNNN 0x2#4 nnn
  | .seByte x kk => formatXKK 0x3#4 x kk
  | .sneByte x kk => formatXKK 0x4#4 x kk
  | .seReg x y n => formatXYN 0x5#4 x y n
  | .ldByte x kk => formatXKK 0x6#4 x kk
  | .addByte x kk => formatXKK 0x7#4 x kk
  | .ldReg x y => formatXYN 0x8#4 x y 0x0#4
  | .orReg x y => formatXYN 0x8#4 x y 0x1#4
  | .andReg x y => formatXYN 0x8#4 x y 0x2#4
  | .xorReg x y => formatXYN 0x8#4 x y 0x3#4
  | .addReg x y => formatXYN 0x8#4 x y 0x4#4
  | .subReg x y => formatXYN 0x8#4 x y 0x5#4
  | .shr x y => formatXYN 0x8#4 x y 0x6#4
  | .subnReg x y => formatXYN 0x8#4 x y 0x7#4
  | .shl x y => formatXYN 0x8#4 x y 0xE#4
  | .sneReg x y n => formatXYN 0x9#4 x y n
  | .ldI nnn => formatNNN 0xA#4 nnn
  | .jpV0 nnn => formatNNN 0xB#4 nnn
  | .rnd x kk => formatXKK 0xC#4 x kk
  | .drw x y n => formatXYN 0xD#4 x y n
  | .skp x => formatXKK 0xE#4 x 0x9E#8
  | .sknp x => formatXKK 0xE#4 x 0xA1#8
  | .ldVxDt x => formatXKK 0xF#4 x 0x07#8
  | .ldVxK x => formatXKK 0xF#4 x 0x0A#8
  | .ldDtVx x => formatXKK 0xF#4 x 0x15#8
  | .ldStVx x => formatXKK 0xF#4 x 0x18#8
  | .addI x => formatXKK 0xF#4 x 0x1E#8
  | .ldF x => formatXKK 0xF#4 x 0x29#8
  | .ldB x => formatXKK 0xF#4 x 0x33#8
  | .storeRegs x => formatXKK 0xF#4 x 0x55#8
  | .loadRegs x => formatXKK 0xF#4 x 0x65#8

/-- The bytes of an instruction in memory order (R43: the high byte at the lower address). -/
def encodeBytes (i : Instr) : List Byte := [hiByte (encode i), loByte (encode i)]

/-- The table's number w, cut to nbits, as an instruction word. Every row of the table has 16 bits, and bit 0 of the table is
bit 0 of R6, so the word is the number. -/
def tableWord (nbits w : Nat) : Word := BitVec.ofNat 16 (w % 2 ^ nbits)

/-- The instruction this decoder reads from the opcode table's number w of nbits bits, laid out in memory order (R43); none where
the word is `Unrecognized` without a row. -/
def decodeTableWord (nbits w : Nat) : Option Instr :=
  match decodeBytes [hiByte (tableWord nbits w), loByte (tableWord nbits w)] with
  | .ok (i, _) => some i
  | .error _ => none

end Sys2Proof
end

