-- ==== Sys2Proof/Config.lean ====
section
/-! DEFINITION. The implementation parameters of 00_scope.md R5, and the free values of the machine. -/

namespace Sys2Proof

/-- NUM_V (R5): general registers V0..VF. -/
abbrev Config.numV : Nat := 16

/-- V_WIDTH (R5, R12): bits of a general register, unsigned. -/
abbrev Config.vWidth : Nat := 8

/-- MEM_SIZE (R5, R33): bytes of the one address space. -/
abbrev Config.memSize : Nat := 4096

/-- ADDR_MAX (R5): the last address. -/
abbrev Config.addrMax : Nat := 0xFFF

/-- I_WIDTH (R5, R15): bits of the index register. -/
abbrev Config.iWidth : Nat := 16

/-- PC_WIDTH (R5, R16): bits of the program counter. -/
abbrev Config.pcWidth : Nat := 16

/-- STACK_DEPTH (R5, R20): entries of the call stack. -/
abbrev Config.stackDepth : Nat := 16

/-- STACK_ENTRY_WIDTH (R5, R20): bits of a return address. DESIGN CHOICE of the spec (D17), log 21: safe. -/
abbrev Config.stackEntryWidth : Nat := 16

/-- TIMER_WIDTH (R5, R23): bits of each of DT and ST. -/
abbrev Config.timerWidth : Nat := 8

/-- TICK_RATE (R5): ticks a second, nominal and driven by the host. No rule of the model depends on it (R149, log 26), so no
definition reads it. -/
abbrev Config.tickRate : Nat := 60

/-- NUM_KEYS (R5, R25): keys 0..F. -/
abbrev Config.numKeys : Nat := 16

/-- FB_WIDTH (R5, R26): columns of the framebuffer. -/
abbrev Config.fbWidth : Nat := 64

/-- FB_HEIGHT (R5, R26): rows of the framebuffer. -/
abbrev Config.fbHeight : Nat := 32

/-- PC_RESET (R5, R16): where PC starts. -/
abbrev Config.pcReset : Word := 0x200#16

/-- FONT_BASE (R5, R35): the address of the first glyph. -/
abbrev Config.fontBase : Nat := 0x050

/-- FONT_GLYPHS (R5, R35): glyphs of the font, for the digits 0..F. -/
abbrev Config.fontGlyphs : Nat := 16

/-- FONT_GLYPHS (R5, R35): bytes of one glyph. -/
abbrev Config.glyphBytes : Nat := 5

/-- ROM_BASE (R5, R139): where the ROM load puts the first byte. -/
abbrev Config.romBase : Nat := 0x200

/-- ROM_MAX (R5, R140): the longest ROM the load accepts, 4096 - 0x200 bytes. -/
abbrev Config.romMax : Nat := Config.memSize - Config.romBase

/-- The values SHIFT_QUIRK may take (R5, 90_conflicts.md C4, 92_eei_decisions.md D15): this hardware has only one. -/
inductive Config.ShiftQuirk where
  /-- Vx is shifted and Vy is ignored. -/
  | inPlace
  deriving DecidableEq, Repr

/-- SHIFT_QUIRK (R5). DESIGN CHOICE of the spec (D15), log 20: safe, since the source fixes these semantics (C4). -/
def Config.shiftQuirk : Config.ShiftQuirk := .inPlace

/-- The byte of the n-th draw of the RNG unit (60_exceptions.md R129): a FREE VALUE. It has no body, so a theorem about it holds
for every sequence of draws. DESIGN CHOICE, log 5: safe for a claim about one run; a claim that compares two runs is on
State.randomByte (Machine/Ops.lean). -/
opaque Config.randomByte : Nat → Byte

end Sys2Proof
end

