-- ==== Sys2Proof/Machine/State.lean ====
section
/-! DEFINITION. The machine's state as plain data (10_state.md R12 to R31), the error kinds (60_exceptions.md R115), what a step
returns (R114), the reasons a step or a host operation stops, and the state at creation (R29, R137). -/

namespace Sys2Proof.Machine

/-- The error kinds of R115's table. -/
inductive ErrorKind where
  /-- Code 0: a word outside the table; never an error outcome (R122). -/
  | unrecognizedOpcode
  /-- Code 1: CALL at depth 16 (R116). -/
  | stackOverflow
  /-- Code 2: RET at depth 0 (R117). -/
  | stackUnderflow
  /-- Code 3: a failed range check of Dxyn, Fx33, Fx55, Fx65 or the fetch (R119). -/
  | outOfBoundsAddress
  /-- Code 4: the ROM load's error (R140). -/
  | romTooLarge
  deriving DecidableEq, Repr

/-- What a step returns to the host (R114). -/
inductive StepResult where
  /-- `Ok`: the instruction executed. -/
  | ok
  /-- `Ok` with the marker `unrecognized(w)` (R69, R122). -/
  | unrecognized (w : Word)
  /-- `Err(kind)`. -/
  | err (kind : ErrorKind)
  deriving DecidableEq, Repr

/-- The contents of memory that differ from the creation contents: (address, byte) pairs in the canonical form Memory.wf
(Machine/Ops.lean). An unlisted address reads as Memory.initialByte says (20_memory.md R34). -/
abbrev Memory := List Host.Cell

/-- The framebuffer, indexed [column][row] (R26, R31). -/
abbrev Framebuffer := Vector (Vector Bool Config.fbHeight) Config.fbWidth

/-- The machine's state: the record of R31, and two fields of the model's own (draws, lastResult). A Byte and a Word16 are the
types R12 to R23 name; that they have the widths of R5 (Config.vWidth and the others) is State.widths_eq in Laws/State.lean. -/
structure State where
  /-- V[0]..V[15] (R12); V[15] is VF, the only flag (R13). -/
  v : Vector Byte Config.numV
  /-- The index register I (R15). -/
  i : Word
  /-- The program counter PC (R16). -/
  pc : Word
  /-- SP, the depth of the call stack, 0..16 (R20). -/
  sp : Fin (Config.stackDepth + 1)
  /-- Stack[0]..Stack[15] (R20); entries from SP on are stale (R22). -/
  stack : Vector Word Config.stackDepth
  /-- The delay timer DT (R23). -/
  dt : Byte
  /-- The sound timer ST (R23). -/
  st : Byte
  /-- Mem (R33). -/
  mem : Memory
  /-- Key[0]..Key[15], true when pressed (R25). -/
  key : Vector Bool Config.numKeys
  /-- FB[c][r] (R26). -/
  fb : Framebuffer
  /-- The MODEL'S OWN: how many random bytes have been drawn (log 5); the next draw is Config.randomByte of it. It is 0 at reset,
  so two runs from reset draw alike: see State.randomByte (Machine/Ops.lean). -/
  draws : Nat
  /-- The MODEL'S OWN: what the last step returned to the host (R114; log 2). No instruction reads it. -/
  lastResult : StepResult
  deriving DecidableEq, Repr

/-- Why a step stops for good: it never does. Every pair of a state and a word has a defined outcome
(93_implementation_defined.md part A), and a typed error (R114) is a next state whose lastResult names it, since R118 gives the
state after it and R121 lets the host step on. DESIGN CHOICE, log 1. -/
inductive Fault where
  deriving DecidableEq, Repr

/-- Why the model gives no meaning. -/
inductive Refusal where
  /-- An arm of exec without a meaning. Safe. No arm of this model uses it. -/
  | notModelled (mnemonic : String)
  /-- Raised by Session.apply for a ROM load after a successful load or after a step: "outside the hardware's defined use. A model
  refuses it" (70_reset_and_hazards.md R141, D20). Safe. -/
  | loadNotAllowed
  /-- Raised by Session.apply for a key index outside 0..15 (60_exceptions.md R132, 93_implementation_defined.md A9). Safe. -/
  | noSuchKey
  deriving DecidableEq, Repr

/-- The outcome type of exec and step. -/
abbrev Result := Host.Outcome State Fault Refusal

/-- The state at creation (R29, R137). PC and Mem are the spec's; the zeros and falses of the rest are its decision D1 (DESIGN
CHOICE, unsafe, log 6); draws and lastResult are the model's own (log 5, log 2). -/
def State.reset : State where
  v := Vector.replicate Config.numV 0x00#8
  i := 0x0000#16
  pc := Config.pcReset
  sp := 0
  stack := Vector.replicate Config.stackDepth 0x0000#16
  dt := 0x00#8
  st := 0x00#8
  mem := []
  key := Vector.replicate Config.numKeys false
  fb := Vector.replicate Config.fbWidth (Vector.replicate Config.fbHeight false)
  draws := 0
  lastResult := .ok

end Sys2Proof.Machine
end

