-- ==== Sys2Proof/Machine/Ops.lean ====
section
/-! DEFINITION. The named operations over memory, registers, the stack and the framebuffer (00_scope.md R8), the fetch, and the
one operation that ends a step with an error (60_exceptions.md R118). -/

namespace Sys2Proof.Machine

/-! ### Memory -/

/-- FONT_DATA (20_memory.md R36): the 16 glyphs of 5 bytes, digit 0 first. PRESUMED: the standard font, supplied from general
knowledge (92_eei_decisions.md D25), log 7. Unsafe: the source gives no bytes. -/
def fontData : List Byte :=
  [0xF0#8, 0x90#8, 0x90#8, 0x90#8, 0xF0#8] ++
  [0x20#8, 0x60#8, 0x20#8, 0x20#8, 0x70#8] ++
  [0xF0#8, 0x10#8, 0xF0#8, 0x80#8, 0xF0#8] ++
  [0xF0#8, 0x10#8, 0xF0#8, 0x10#8, 0xF0#8] ++
  [0x90#8, 0x90#8, 0xF0#8, 0x10#8, 0x10#8] ++
  [0xF0#8, 0x80#8, 0xF0#8, 0x10#8, 0xF0#8] ++
  [0xF0#8, 0x80#8, 0xF0#8, 0x90#8, 0xF0#8] ++
  [0xF0#8, 0x10#8, 0x20#8, 0x40#8, 0x40#8] ++
  [0xF0#8, 0x90#8, 0xF0#8, 0x90#8, 0xF0#8] ++
  [0xF0#8, 0x90#8, 0xF0#8, 0x10#8, 0xF0#8] ++
  [0xF0#8, 0x90#8, 0xF0#8, 0x90#8, 0x90#8] ++
  [0xE0#8, 0x90#8, 0xE0#8, 0x90#8, 0xE0#8] ++
  [0xF0#8, 0x80#8, 0x80#8, 0x80#8, 0xF0#8] ++
  [0xE0#8, 0x90#8, 0x90#8, 0x90#8, 0xE0#8] ++
  [0xF0#8, 0x80#8, 0xF0#8, 0x80#8, 0xF0#8] ++
  [0xF0#8, 0x80#8, 0xF0#8, 0x80#8, 0x80#8]

/-- What an address holds at creation (R34, R137): the font at 0x050..0x09F, 0x00 elsewhere. -/
def Memory.initialByte (a : Nat) : Byte :=
  if Config.fontBase ≤ a ∧ a < Config.fontBase + Config.fontGlyphs * Config.glyphBytes then fontData.getD (a - Config.fontBase) 0x00#8 else 0x00#8

/-- Mem[a]: the listed byte, or the creation contents where none is listed. -/
def Memory.get : Memory → Nat → Byte
  | [], a => Memory.initialByte a
  | (k, b) :: rest, a => if k = a then b else Memory.get rest a

/-- Mem[a] <- b, in canonical form: an entry equal to the creation contents is not listed. -/
def Memory.put : Memory → Nat → Byte → Memory
  | [], a, b => if b = Memory.initialByte a then [] else [(a, b)]
  | (k, c) :: rest, a, b =>
    if a < k then (if b = Memory.initialByte a then (k, c) :: rest else (a, b) :: (k, c) :: rest)
    else if a = k then (if b = Memory.initialByte a then rest else (a, b) :: rest)
    else (k, c) :: Memory.put rest a b

/-- Mem[a] <- the first byte, Mem[a + 1] <- the second, and so on: the copy of the ROM load (70_reset_and_hazards.md R139). -/
def Memory.putBlock : Memory → Nat → List Byte → Memory
  | m, _, [] => m
  | m, a, b :: bs => Memory.putBlock (Memory.put m a b) (a + 1) bs

/-- The canonical form: addresses strictly rising and inside the address space (R33), no entry equal to what an unlisted address
reads as. -/
abbrev Memory.wf (m : Memory) : Prop :=
  m.Pairwise (fun c d => c.1 < d.1) ∧ ∀ c ∈ m, c.1 ≤ Config.addrMax ∧ c.2 ≠ Memory.initialByte c.1

/-- `MemRead(a, 1)` (R38), with its guard. -/
def State.memRead (s : State) (a : Nat) : Except ErrorKind Byte :=
  if a > Config.addrMax then .error .outOfBoundsAddress else .ok (Memory.get s.mem a)

/-- `MemWrite(a, 1, b)` (R40), with its guard. -/
def State.memWrite (s : State) (a : Nat) (b : Byte) : Except ErrorKind State :=
  if a > Config.addrMax then .error .outOfBoundsAddress else .ok { s with mem := Memory.put s.mem a b }

/-- n bytes read at a, a+1, ..., in ascending order (R45). -/
def State.readBlock (s : State) (a : Nat) : Nat → Except ErrorKind (List Byte)
  | 0 => .ok []
  | n + 1 =>
    match s.memRead a with
    | .error k => .error k
    | .ok b =>
      match s.readBlock (a + 1) n with
      | .error k => .error k
      | .ok bs => .ok (b :: bs)

/-- The bytes written at a, a+1, ..., in ascending order (R45). -/
def State.writeBlock (s : State) (a : Nat) : List Byte → Except ErrorKind State
  | [] => .ok s
  | b :: bs =>
    match s.memWrite a b with
    | .error k => .error k
    | .ok t => t.writeBlock (a + 1) bs

/-- `CheckRange(base, count)` (R41): the sum is an unbounded integer, and count 0 checks nothing. DESIGN CHOICE of the spec (D9),
log 17: safe. -/
def checkRange (base : Word) (count : Nat) : Except ErrorKind Unit :=
  if 0 < count ∧ base.toNat + count - 1 > Config.addrMax then .error .outOfBoundsAddress else .ok ()

/-! ### Registers -/

/-- V[x] (10_state.md R12). -/
def State.getV (s : State) (x : Reg) : Byte := s.v[x.toNat]'(x.isLt)

/-- V[x] <- b (R12): no register is hardwired. -/
def State.setV (s : State) (x : Reg) (b : Byte) : State := { s with v := s.v.set x.toNat b x.isLt }

/-- VF, the register that is the flag (R13). -/
abbrev regF : Reg := 0xF#4

/-- V[0], the register Bnnn adds (41_control_flow.md R81). -/
abbrev reg0 : Reg := 0x0#4

/-- I <- a (R15). -/
def State.setI (s : State) (a : Word) : State := { s with i := a }

/-- PC <- a (R16): neither alignment nor range is checked (R18). -/
def State.setPc (s : State) (a : Word) : State := { s with pc := a }

/-- DT <- b (R23). -/
def State.setDt (s : State) (b : Byte) : State := { s with dt := b }

/-- ST <- b (R23). -/
def State.setSt (s : State) (b : Byte) : State := { s with st := b }

/-- V[k], V[k+1], ... <- the bytes, in ascending order (43_index_memory.md R101). -/
def State.setRegs (s : State) (k : Nat) : List Byte → State
  | [] => s
  | b :: bs => (s.setV (BitVec.ofNat 4 k) b).setRegs (k + 1) bs

/-- V[0], ..., V[count-1] (R100). -/
def State.firstRegs (s : State) (count : Nat) : List Byte := s.v.toList.take count

/-! ### The call stack -/

/-- `Push(a)` (R21). The entry is 16 bits wide (D17, log 21). -/
def State.push (s : State) (a : Word) : Except ErrorKind State :=
  if h : s.sp.val < Config.stackDepth then
    .ok { s with stack := s.stack.set s.sp.val a h, sp := ⟨s.sp.val + 1, by omega⟩ }
  else .error .stackOverflow

/-- `Pop()` (R22): the address and the state after; the entry stays in the array. -/
def State.pop (s : State) : Except ErrorKind (Word × State) :=
  if h : 0 < s.sp.val then
    .ok (s.stack[s.sp.val - 1]'(by omega), { s with sp := ⟨s.sp.val - 1, by omega⟩ })
  else .error .stackUnderflow

/-! ### The framebuffer -/

/-- FB[c][r] (R26); false outside the screen, where no rule reads. -/
def Framebuffer.get (f : Framebuffer) (c r : Nat) : Bool :=
  if h : c < Config.fbWidth ∧ r < Config.fbHeight then (f[c]'h.1)[r]'h.2 else false

/-- FB[c][r] <- b (R26); nothing outside the screen, where no rule writes. -/
def Framebuffer.put (f : Framebuffer) (c r : Nat) (b : Bool) : Framebuffer :=
  if h : c < Config.fbWidth ∧ r < Config.fbHeight then f.set c ((f[c]'h.1).set r b h.2) h.1 else f

/-- The framebuffer with every pixel false (44_display.md R103). -/
def Framebuffer.clear : Framebuffer := Vector.replicate Config.fbWidth (Vector.replicate Config.fbHeight false)

/-- FB <- f. -/
def State.setFb (s : State) (f : Framebuffer) : State := { s with fb := f }

/-! ### The RNG unit -/

/-- `RandomByte()` (60_exceptions.md R129): one fresh draw, a free value (log 5). DESIGN CHOICE, unsafe (log 5): every machine
is created with draws = 0 and reads the one sequence Config.randomByte, so two created machines, and a machine re-created by the
host's reset (70_reset_and_hazards.md R143), draw the same bytes in the same order. 91_not_in_source.md N29 gives no
reproducibility between runs: a claim that compares two runs must let their draws differ. -/
def State.randomByte (s : State) : Byte × State := (Config.randomByte s.draws, { s with draws := s.draws + 1 })

/-! ### How a step ends -/

/-- What the step returns to the host (R114). -/
def State.setResult (s : State) (r : StepResult) : State := { s with lastResult := r }

/-- The step returns `Ok` (R67). -/
def State.done (s : State) : Result := .next (s.setResult .ok)

/-- `raise kind`, THE ONE OPERATION BY WHICH A STEP ENDS WITH AN ERROR (R118): s is the state the erroring instruction started
from, so PC keeps what the step had made of it and nothing else changes. The error goes to the host as the step's result and
transfers no control: no vector, no saved register, no mode (R121), and so no return from it either (R125). -/
def State.raise (s : State) (kind : ErrorKind) : Result := .next (s.setResult (.err kind))

/-- Executing `Unrecognized` (30_encoding.md R69): nothing changes, and the step returns `Ok` with the marker. -/
def State.skipUnrecognized (s : State) (w : Word) : Result := .next (s.setResult (.unrecognized w))

/-! ### Fetch -/

/-- `Fetch()` (20_memory.md R39): two bytes at PC, big-endian (R43), at any parity (R44). The error beyond 0xFFE is the spec's
decision D3 (DESIGN CHOICE, safe, log 12). -/
def State.fetch (s : State) : Except ErrorKind Word :=
  if s.pc.toNat + 1 > Config.addrMax then .error .outOfBoundsAddress
  else .ok (wordOfBytes (Memory.get s.mem s.pc.toNat) (Memory.get s.mem (s.pc.toNat + 1)))

/-- The pre-increment `PC <- (A + 2) mod 2^16` of R67. -/
def State.advance (s : State) : State := s.setPc (s.pc + 2#16)

/-- The state with a word stored at PC, high byte first, and nothing else changed; the state itself where no two bytes stand at PC
(PC > 0xFFE, R39). -/
def State.storeAtPc (s : State) (w : Word) : State :=
  if s.pc.toNat + 1 > Config.addrMax then s
  else { s with mem := Memory.put (Memory.put s.mem s.pc.toNat (hiByte w)) (s.pc.toNat + 1) (loByte w) }

/-- The codes of R115 (the spec's own, D18, log 24); no rule reads them. -/
def ErrorKind.code : ErrorKind → Nat
  | .unrecognizedOpcode => 0
  | .stackOverflow => 1
  | .stackUnderflow => 2
  | .outOfBoundsAddress => 3
  | .romTooLarge => 4

end Sys2Proof.Machine
end

