-- ==== Sys2Proof/Machine/Flags.lean ====
section
/-! DEFINITION. The flag computations of 10_state.md R14 and 42_alu.md R83: what each flag-writing instruction puts into VF. -/

namespace Sys2Proof.Machine

/-- `bool01` (00_scope.md R7) as a Byte. -/
def bool01 (b : Bool) : Byte := if b then 1#8 else 0#8

/-- Carry (R90): the sum in a wider intermediate exceeds 255. -/
def carryFlag (a b : Byte) : Byte := bool01 (decide (a.toNat + b.toNat > 255))

/-- No borrow (R91, R93): the minuend is strictly greater than the subtrahend. -/
def noBorrowFlag (minuend subtrahend : Byte) : Byte := bool01 (decide (minuend.toNat > subtrahend.toNat))

/-- The bit a right shift drops: old bit 0 (R92). -/
def shrFlag (a : Byte) : Byte := a &&& 1#8

/-- The bit a left shift drops: old bit 7 (R94). -/
def shlFlag (a : Byte) : Byte := (a >>> 7) &&& 1#8

/-- The end of every flag-writing instruction: the result into V[x], then the flag into VF, so VF keeps the flag when x = F (R14,
00_scope.md R9). DESIGN CHOICE of the spec (D6), unsafe, log 15. -/
def State.setVAndFlag (s : State) (x : Reg) (result flag : Byte) : State := (s.setV x result).setV regF flag

end Sys2Proof.Machine
end

