-- ==== Sys2Proof/Machine/Operands.lean ====
section
/-! DEFINITION. The operand forms: zero-extended immediates (30_encoding.md R55), the shifted register (00_scope.md R5
SHIFT_QUIRK), the glyph address (43_index_memory.md R98), the decimal digits (R99), the keys (45_keys_timers.md R107, R110) and the
wrapped sprite origin (44_display.md R105). -/

namespace Sys2Proof.Machine

/-- `zext_16(nnn)` (R55). -/
def zext16 (nnn : Addr12) : Word := nnn.setWidth 16

/-- A register's Byte as a Word16, for the arithmetic on I and PC (R81, R97). -/
def wordOfByte (b : Byte) : Word := b.setWidth 16

/-- The register a shift reads: Vx, with Vy ignored (42_alu.md R92, R94; SHIFT_QUIRK). -/
def shiftSource (x _y : Reg) : Reg :=
  match Config.shiftQuirk with
  | .inPlace => x

/-- The address of the glyph of d, `FONT_BASE + 5 * d`, with the full byte (R98). -/
def glyphAddress (d : Byte) : Word := BitVec.ofNat 16 (Config.fontBase + Config.glyphBytes * d.toNat)

/-- The hundreds, tens and ones digits of a byte (R99). -/
def bcdDigits (b : Byte) : List Byte :=
  [BitVec.ofNat 8 (b.toNat / 100), BitVec.ofNat 8 (b.toNat / 10 % 10), BitVec.ofNat 8 (b.toNat % 10)]

/-- Key[k] for k in 0..15, and false beyond: no such key. -/
def State.keyNat (s : State) (k : Nat) : Bool := if h : k < Config.numKeys then s.key[k] else false

/-- `KeyAt(v)` (R107): a value above 0xF reads as not pressed (DESIGN CHOICE of the spec, D11, unsafe, log 18). -/
def State.keyAt (s : State) (b : Byte) : Bool := s.keyNat b.toNat

/-- The least pressed key (R110), scanning 0 to F in increasing order. -/
def State.firstKey (s : State) : Option Nat := (List.range Config.numKeys).find? s.keyNat

/-- The column a sprite starts at: `V[x] mod 64` (R105). -/
def originColumn (b : Byte) : Nat := b.toNat % Config.fbWidth

/-- The row a sprite starts at: `V[y] mod 32` (R105). -/
def originRow (b : Byte) : Nat := b.toNat % Config.fbHeight

end Sys2Proof.Machine
end

