-- ==== Sys2Proof/Machine/Alu.lean ====
section
/-! DEFINITION. The register and arithmetic instructions (42_alu.md R83 to R95). -/

namespace Sys2Proof.Machine

/-- LD Vx, kk (R84). -/
def execLdByte (x : Reg) (kk : Byte) (s : State) : Result := (s.setV x kk).done

/-- ADD Vx, kk (R85): wraps at 8 bits and writes no flag. -/
def execAddByte (x : Reg) (kk : Byte) (s : State) : Result := (s.setV x (s.getV x + kk)).done

/-- LD Vx, Vy (R86). -/
def execLdReg (x y : Reg) (s : State) : Result := (s.setV x (s.getV y)).done

/-- OR Vx, Vy (R87): VF is not written as a flag (D7, log 16). -/
def execOrReg (x y : Reg) (s : State) : Result := (s.setV x (s.getV x ||| s.getV y)).done

/-- AND Vx, Vy (R88): VF is not written as a flag (D7, log 16). -/
def execAndReg (x y : Reg) (s : State) : Result := (s.setV x (s.getV x &&& s.getV y)).done

/-- XOR Vx, Vy (R89): VF is not written as a flag (D7, log 16). -/
def execXorReg (x y : Reg) (s : State) : Result := (s.setV x (s.getV x ^^^ s.getV y)).done

/-- ADD Vx, Vy (R90). -/
def execAddReg (x y : Reg) (s : State) : Result :=
  (s.setVAndFlag x (s.getV x + s.getV y) (carryFlag (s.getV x) (s.getV y))).done

/-- SUB Vx, Vy (R91): the minuend is Vx. -/
def execSubReg (x y : Reg) (s : State) : Result :=
  (s.setVAndFlag x (s.getV x - s.getV y) (noBorrowFlag (s.getV x) (s.getV y))).done

/-- SHR Vx (R92). -/
def execShr (x y : Reg) (s : State) : Result :=
  (s.setVAndFlag x (s.getV (shiftSource x y) >>> 1) (shrFlag (s.getV (shiftSource x y)))).done

/-- SUBN Vx, Vy (R93): the minuend is Vy. -/
def execSubnReg (x y : Reg) (s : State) : Result :=
  (s.setVAndFlag x (s.getV y - s.getV x) (noBorrowFlag (s.getV y) (s.getV x))).done

/-- SHL Vx (R94). -/
def execShl (x y : Reg) (s : State) : Result :=
  (s.setVAndFlag x (s.getV (shiftSource x y) <<< 1) (shlFlag (s.getV (shiftSource x y)))).done

/-- RND Vx, kk (R95): one draw, masked. -/
def execRnd (x : Reg) (kk : Byte) (s : State) : Result :=
  match s.randomByte with
  | (r, t) => (t.setV x (r &&& kk)).done

end Sys2Proof.Machine
end

