-- ==== Sys2Proof/Machine/Control.lean ====
section
/-! DEFINITION. The control flow instructions (41_control_flow.md R73 to R82). Each runs with PC = A + 2, A being its own address
(30_encoding.md R68). -/

namespace Sys2Proof.Machine

/-- A skip: PC <- PC + 2 when the condition holds (R77). -/
def State.skipIf (s : State) (cond : Bool) : Result :=
  if cond then (s.setPc (s.pc + 2#16)).done else s.done

/-- SYS nnn (R73): `Unrecognized`, run as a no-op (R69). -/
def execSys (nnn : Addr12) (s : State) : Result := s.skipUnrecognized (zext16 nnn)

/-- RET (R76). -/
def execRet (s : State) : Result :=
  match s.pop with
  | .error k => s.raise k
  | .ok (a, t) => (t.setPc a).done

/-- JP nnn (R74). -/
def execJp (nnn : Addr12) (s : State) : Result := (s.setPc (zext16 nnn)).done

/-- CALL nnn (R75): pushes PC = A + 2. -/
def execCall (nnn : Addr12) (s : State) : Result :=
  match s.push s.pc with
  | .error k => s.raise k
  | .ok t => (t.setPc (zext16 nnn)).done

/-- SE Vx, kk (R77). -/
def execSeByte (x : Reg) (kk : Byte) (s : State) : Result := s.skipIf (s.getV x == kk)

/-- SNE Vx, kk (R78). -/
def execSneByte (x : Reg) (kk : Byte) (s : State) : Result := s.skipIf (s.getV x != kk)

/-- SE Vx, Vy (R79): the low nibble of the word is ignored (R64). -/
def execSeReg (x y : Reg) (_n : Nibble) (s : State) : Result := s.skipIf (s.getV x == s.getV y)

/-- SNE Vx, Vy (R80): the low nibble of the word is ignored (R64). -/
def execSneReg (x y : Reg) (_n : Nibble) (s : State) : Result := s.skipIf (s.getV x != s.getV y)

/-- JP V0, nnn (R81). -/
def execJpV0 (nnn : Addr12) (s : State) : Result := (s.setPc (zext16 nnn + wordOfByte (s.getV reg0))).done

end Sys2Proof.Machine
end

