-- ==== Sys2Proof/Machine/Display.lean ====
section
/-! DEFINITION. The display instructions (44_display.md R102 to R106). -/

namespace Sys2Proof.Machine

/-- Bit 7-c of a sprite byte, the pixel at column offset c (R104). PRESUMED, from the spec's general knowledge (D26), unsafe,
log 22. -/
def spriteBit (b : Byte) (c : Nat) : Bool := b.getLsbD (7 - c)

/-- One pixel of R105's inner loop, at row y of the screen and column offset c: a set bit inside the screen is XORed in, and a
pixel it turns off is a hit; a clipped pixel is neither drawn nor counted. -/
def drawPixel (x0 y : Nat) (b : Byte) (acc : Framebuffer × Bool) (c : Nat) : Framebuffer × Bool :=
  if spriteBit b c = true ∧ x0 + c < Config.fbWidth ∧ y < Config.fbHeight then
    (Framebuffer.put acc.1 (x0 + c) y (!Framebuffer.get acc.1 (x0 + c) y),
      acc.2 || Framebuffer.get acc.1 (x0 + c) y)
  else acc

/-- One row of the sprite: columns 0..7 (R105). -/
def drawRow (x0 y : Nat) (b : Byte) (acc : Framebuffer × Bool) : Framebuffer × Bool :=
  (List.range 8).foldl (drawPixel x0 y b) acc

/-- The rows of the sprite, the first at row y of the screen (R105). -/
def drawRows (x0 : Nat) : Nat → List Byte → Framebuffer × Bool → Framebuffer × Bool
  | _, [], acc => acc
  | y, b :: bs, acc => drawRows x0 (y + 1) bs (drawRow x0 y b acc)

/-- CLS (R103). -/
def execCls (s : State) : Result := (s.setFb Framebuffer.clear).done

/-- DRW Vx, Vy, n (R105): the origin is read before VF is written, and all n rows are range-checked, clipped or not (D10,
log 17). -/
def execDrw (x y : Reg) (n : Nibble) (s : State) : Result :=
  match checkRange s.i n.toNat with
  | .error k => s.raise k
  | .ok _ =>
    match s.readBlock s.i.toNat n.toNat with
    | .error k => s.raise k
    | .ok bs =>
      match drawRows (originColumn (s.getV x)) (originRow (s.getV y)) bs (s.fb, false) with
      | (f, hit) => ((s.setFb f).setV regF (bool01 hit)).done

end Sys2Proof.Machine
end

