-- ==== Sys2Proof/Machine/IndexMemory.lean ====
section
/-! DEFINITION. The index register and memory instructions (43_index_memory.md R96 to R101). Each memory instruction checks its
whole range before any access (20_memory.md R41), and an error is raised from the state it started in (60_exceptions.md R118). -/

namespace Sys2Proof.Machine

/-- LD I, nnn (R96). -/
def execLdI (nnn : Addr12) (s : State) : Result := (s.setI (zext16 nnn)).done

/-- ADD I, Vx (R97): wraps at 16 bits; VF is untouched (D8, log 16). -/
def execAddI (x : Reg) (s : State) : Result := (s.setI (s.i + wordOfByte (s.getV x))).done

/-- LD F, Vx (R98). -/
def execLdF (x : Reg) (s : State) : Result := (s.setI (glyphAddress (s.getV x))).done

/-- Bytes stored at I under CheckRange: the whole range is checked, then the bytes go out in ascending order (R41, R45). -/
def State.storeAtI (s : State) (bs : List Byte) : Result :=
  match checkRange s.i bs.length with
  | .error k => s.raise k
  | .ok _ =>
    match s.writeBlock s.i.toNat bs with
    | .error k => s.raise k
    | .ok t => t.done

/-- LD B, Vx (R99). -/
def execLdB (x : Reg) (s : State) : Result := s.storeAtI (bcdDigits (s.getV x))

/-- LD [I], Vx (R100): V0..Vx inclusive; I is unchanged. -/
def execStoreRegs (x : Reg) (s : State) : Result := s.storeAtI (s.firstRegs (x.toNat + 1))

/-- LD Vx, [I] (R101): V0..Vx inclusive; I is unchanged. -/
def execLoadRegs (x : Reg) (s : State) : Result :=
  match checkRange s.i (x.toNat + 1) with
  | .error k => s.raise k
  | .ok _ =>
    match s.readBlock s.i.toNat (x.toNat + 1) with
    | .error k => s.raise k
    | .ok bs => (s.setRegs 0 bs).done

end Sys2Proof.Machine
end

