-- ==== Sys2Proof/Machine/KeysTimers.lean ====
section
/-! DEFINITION. The keypad and timer instructions (45_keys_timers.md R107 to R113). -/

namespace Sys2Proof.Machine

/-- SKP Vx (R108). -/
def execSkp (x : Reg) (s : State) : Result := s.skipIf (s.keyAt (s.getV x))

/-- SKNP Vx (R109). -/
def execSknp (x : Reg) (s : State) : Result := s.skipIf (!s.keyAt (s.getV x))

/-- LD Vx, DT (R111). -/
def execLdVxDt (x : Reg) (s : State) : Result := (s.setV x s.dt).done

/-- LD Vx, K (R110): the least pressed key, or PC rewound by 2 so that the same instruction is fetched again. A held key is taken
(D12, log 18). -/
def execLdVxK (x : Reg) (s : State) : Result :=
  match s.firstKey with
  | none => (s.setPc (s.pc - 2#16)).done
  | some k => (s.setV x (BitVec.ofNat 8 k)).done

/-- LD DT, Vx (R112). -/
def execLdDtVx (x : Reg) (s : State) : Result := (s.setDt (s.getV x)).done

/-- LD ST, Vx (R113). -/
def execLdStVx (x : Reg) (s : State) : Result := (s.setSt (s.getV x)).done

end Sys2Proof.Machine
end

