-- ==== Sys2Proof/Machine/Step.lean ====
section
/-! DEFINITION. One `step()` of 30_encoding.md R67, and the host's placing of an instruction at PC. -/

namespace Sys2Proof.Machine

/-- `step()` (R67): fetch, pre-increment, decode, execute. A failed fetch changes nothing (60_exceptions.md R118(b)); an
`Unrecognized` word runs as a no-op (R69). -/
def step (s : State) : Host.Outcome State Fault Refusal :=
  match s.fetch with
  | .error k => s.raise k
  | .ok w =>
    match decode w with
    | .ok i => exec i s.advance
    | .error _ => s.advance.skipUnrecognized w

/-- The state with the opcode table's number w of nbits bits stored where step fetches next (log 9). -/
def State.withFetchWord (s : State) (nbits w : Nat) : State := s.storeAtPc (tableWord nbits w)

end Sys2Proof.Machine
end

