-- ==== Sys2Proof/Machine/HostOps.lean ====
section
/-! DEFINITION. The agents beside the core, and all the operations of the hardware (60_exceptions.md R126 to R133,
70_reset_and_hazards.md R137 to R143): the ticker, the keypad's host, the ROM load, and a session in which they and the steps
follow one another in any order the host chooses. -/

namespace Sys2Proof.Machine

/-- One timer's part of a tick (R126): down by one, never below 0. -/
def tickTimer (b : Byte) : Byte := if b.toNat > 0 then b - 1#8 else b

/-- `Tick()` (R126): one indivisible event on both timers (D16, log 10); it touches DT and ST only. -/
def State.tick (s : State) : State := (s.setDt (tickTimer s.dt)).setSt (tickTimer s.st)

/-- `Key[k] <- b` (R131, R132), for k in 0..15; the state itself for any other k, which Session.apply refuses. -/
def State.setKey (s : State) (k : Nat) (b : Bool) : State :=
  if h : k < Config.numKeys then { s with key := s.key.set k b h } else s

/-- `Load(rom)` (R139): the bytes verbatim from 0x200 on, or RomTooLarge with the machine unchanged (R140). -/
def State.loadRom (s : State) (rom : List Byte) : Except ErrorKind State :=
  if rom.length > Config.romMax then .error .romTooLarge
  else .ok { s with mem := Memory.putBlock s.mem Config.romBase rom }

/-- The sound output (R128): the level `ST != 0`. -/
def State.soundOn (s : State) : Bool := s.st != 0#8

/-- What the host can read (10_state.md R32, 60_exceptions.md R132). -/
structure HostView where
  fb : Framebuffer
  dt : Byte
  st : Byte
  sound : Bool
  deriving DecidableEq, Repr

/-- The host's read (R132). -/
def State.view (s : State) : HostView where
  fb := s.fb
  dt := s.dt
  st := s.st
  sound := s.soundOn

/-- Where a session stands in the order of R142. The machine has no such mode (10_state.md R28): it is the host's protocol, which
R141 makes the model follow (log 11). -/
inductive Phase where
  /-- Created; no load has succeeded and no step has run. -/
  | fresh
  /-- A ROM is loaded and no step has run. -/
  | loaded
  /-- A step has run. -/
  | running
  deriving DecidableEq, Repr

/-- The operations of the hardware after creation (R132). -/
inductive HostOp where
  | load (rom : List Byte)
  | step
  | tick
  | setKey (k : Nat) (pressed : Bool)
  | read
  deriving DecidableEq, Repr

/-- What the host gets back (R132). -/
inductive Reply where
  | loadOk
  | loadErr (kind : ErrorKind)
  | stepped (r : StepResult)
  | nothing
  | seen (view : HostView)
  deriving DecidableEq, Repr

/-- One machine and where its session stands. -/
structure Session where
  machine : State
  phase : Phase
  deriving DecidableEq, Repr

/-- `create` (R137), which cannot fail (R138); also the host's reset, before its load (R143). It starts the free draws at 0 each
time (log 5; see State.randomByte). -/
def Session.create : Session := ⟨State.reset, .fresh⟩

/-- The ROM load within a session: once, before the first step (R141); a rejected load leaves all as it was, and the host may try
again. -/
def Session.load (c : Session) (rom : List Byte) : Host.Outcome (Session × Reply) Fault Refusal :=
  match c.phase with
  | .fresh =>
    match c.machine.loadRom rom with
    | .ok t => .next (⟨t, .loaded⟩, .loadOk)
    | .error k => .next (c, .loadErr k)
  | .loaded => .refused .loadNotAllowed
  | .running => .refused .loadNotAllowed

/-- A step within a session: its result goes to the host (R114). -/
def Session.step (c : Session) : Host.Outcome (Session × Reply) Fault Refusal :=
  match Sys2Proof.Machine.step c.machine with
  | .next t => .next (⟨t, .running⟩, .stepped t.lastResult)
  | .fault r => .fault r
  | .refused r => .refused r

/-- One operation of the host (R132), an atomic event between two steps (R133). -/
def Session.apply (c : Session) : HostOp → Host.Outcome (Session × Reply) Fault Refusal
  | .load rom => c.load rom
  | .step => c.step
  | .tick => .next (⟨c.machine.tick, c.phase⟩, .nothing)
  | .setKey k b =>
    if k < Config.numKeys then .next (⟨c.machine.setKey k b, c.phase⟩, .nothing) else .refused .noSuchKey
  | .read => .next (c, .seen c.machine.view)

/-- A run (R142): any sequence of operations, so any interleaving of steps, ticks and key changes (R127). -/
def Session.run (c : Session) : List HostOp → Host.Outcome (Session × List Reply) Fault Refusal
  | [] => .next (c, [])
  | op :: ops =>
    match c.apply op with
    | .fault r => .fault r
    | .refused r => .refused r
    | .next (d, reply) =>
      match d.run ops with
      | .fault r => .fault r
      | .refused r => .refused r
      | .next (e, replies) => .next (e, reply :: replies)

end Sys2Proof.Machine
end

