-- ==== Sys2Proof/Safety.lean ====
section
/-! DEFINITION. The terms claims use: the machine's invariant, states that agree but for some part, the end of a run. -/

namespace Sys2Proof.Machine

/-- What a step may return (60_exceptions.md R114): the three error kinds of a step, never UnrecognizedOpcode or RomTooLarge. -/
def StepResult.legal : StepResult → Prop
  | .ok => True
  | .unrecognized _ => True
  | .err k => k = .stackOverflow ∨ k = .stackUnderflow ∨ k = .outOfBoundsAddress

/-- The invariant of the machine: memory in canonical form, every live return address at most 0x1000 (10_state.md R30), PC at most
0x10FE (R19), and a result that a step can return (60_exceptions.md R114). -/
structure State.Inv (s : State) : Prop where
  memory : Memory.wf s.mem
  stack : ∀ (k : Nat) (h : k < 16), k < s.sp.val → (s.stack[k]'h).toNat ≤ 0x1000
  pc : s.pc.toNat ≤ 0x10FE
  result : s.lastResult.legal

/-- Every byte of memory reads the same in both states. -/
def SameMemory (s t : State) : Prop := ∀ a : Nat, Memory.get t.mem a = Memory.get s.mem a

/-- Every byte of memory outside the n bytes from address a reads the same in both states. -/
def SameMemoryOutside (a n : Nat) (s t : State) : Prop :=
  ∀ b : Nat, (b < a ∨ a + n ≤ b) → Memory.get t.mem b = Memory.get s.mem b

/-- Every general register reads the same in both states. -/
def SameRegs (s t : State) : Prop := ∀ j : Reg, t.getV j = s.getV j

/-- Every general register but x reads the same in both states. -/
def SameRegsBut (x : Reg) (s t : State) : Prop := ∀ j : Reg, j ≠ x → t.getV j = s.getV j

/-- The call stack and its depth are the same. -/
def SameStack (s t : State) : Prop := t.sp = s.sp ∧ t.stack = s.stack

/-- The timers are the same. -/
def SameTimers (s t : State) : Prop := t.dt = s.dt ∧ t.st = s.st

/-- The keypad and the framebuffer are the same. -/
def SameScreenAndKeys (s t : State) : Prop := t.fb = s.fb ∧ t.key = s.key

/-- Everything but the general registers (and what the step returns) is the same: I, PC, the stack, the timers, memory, keypad,
framebuffer and the count of draws. -/
def SameButRegs (s t : State) : Prop :=
  t.i = s.i ∧ t.pc = s.pc ∧ SameStack s t ∧ SameTimers s t ∧ SameMemory s t ∧ SameScreenAndKeys s t ∧ t.draws = s.draws

/-- Everything but PC (and what the step returns) is the same. -/
def SameButPc (s t : State) : Prop :=
  SameRegs s t ∧ t.i = s.i ∧ SameStack s t ∧ SameTimers s t ∧ SameMemory s t ∧ SameScreenAndKeys s t ∧ t.draws = s.draws

/-- Everything but PC and the call stack (and what the step returns) is the same. -/
def SameButPcAndStack (s t : State) : Prop :=
  SameRegs s t ∧ t.i = s.i ∧ SameTimers s t ∧ SameMemory s t ∧ SameScreenAndKeys s t ∧ t.draws = s.draws

/-- Everything but I (and what the step returns) is the same. -/
def SameButI (s t : State) : Prop :=
  SameRegs s t ∧ t.pc = s.pc ∧ SameStack s t ∧ SameTimers s t ∧ SameMemory s t ∧ SameScreenAndKeys s t ∧ t.draws = s.draws

/-- Everything but the timers (and what the step returns) is the same. -/
def SameButTimers (s t : State) : Prop :=
  SameRegs s t ∧ t.i = s.i ∧ t.pc = s.pc ∧ SameStack s t ∧ SameMemory s t ∧ SameScreenAndKeys s t ∧ t.draws = s.draws

/-- Everything but memory (and what the step returns) is the same. -/
def SameButMemory (s t : State) : Prop :=
  SameRegs s t ∧ t.i = s.i ∧ t.pc = s.pc ∧ SameStack s t ∧ SameTimers s t ∧ SameScreenAndKeys s t ∧ t.draws = s.draws

/-- Everything but the general registers and the framebuffer (and what the step returns) is the same. -/
def SameButRegsAndScreen (s t : State) : Prop :=
  t.i = s.i ∧ t.pc = s.pc ∧ SameStack s t ∧ SameTimers s t ∧ SameMemory s t ∧ t.key = s.key ∧ t.draws = s.draws

/-- The step ends with an error, and nothing else has changed (60_exceptions.md R118). -/
def RaisedFrom (s : State) (kind : ErrorKind) (t : State) : Prop := t = s.setResult (.err kind)

/-- The next step is a jump to itself: the word at PC is 1nnn with nnn = PC (70_reset_and_hazards.md R142). -/
def State.atSelfJump (s : State) : Bool :=
  match s.fetch with
  | .error _ => false
  | .ok w => fieldOp w == 0x1#4 && (fieldNNN w).toNat == s.pc.toNat

/-- The last step returned an error. -/
def StepResult.isErr : StepResult → Bool
  | .ok => false
  | .unrecognized _ => false
  | .err _ => true

/-- The end of a run, for claims (R142, D30): a self-jump, or a step that returned an error. The hardware does not stop there. -/
def State.endOfRun (s : State) : Bool := s.atSelfJump || s.lastResult.isErr

/-- Whether an instruction may write general register j: its destination, VF for the flag writers of 10_state.md R14, and
V0..Vx for Fx65 (R101). -/
def writesReg (i : Instr) (j : Reg) : Bool :=
  match i with
  | .ldByte x _ | .addByte x _ | .ldReg x _ | .orReg x _ | .andReg x _ | .xorReg x _ | .rnd x _ | .ldVxDt x | .ldVxK x => j == x
  | .addReg x _ | .subReg x _ | .shr x _ | .subnReg x _ | .shl x _ => j == x || j == regF
  | .drw _ _ _ => j == regF
  | .loadRegs x => decide (j.toNat ≤ x.toNat)
  | .sys _ | .cls | .ret | .jp _ | .call _ | .seByte _ _ | .sneByte _ _ | .seReg _ _ _ | .sneReg _ _ _ | .ldI _ | .jpV0 _
  | .skp _ | .sknp _ | .ldDtVx _ | .ldStVx _ | .addI _ | .ldF _ | .ldB _ | .storeRegs _ => false

/-- Whether an instruction may leave PC elsewhere than at A + 2 (R17). -/
def writesPc (i : Instr) : Bool :=
  match i with
  | .ret | .jp _ | .call _ | .seByte _ _ | .sneByte _ _ | .seReg _ _ _ | .sneReg _ _ _ | .jpV0 _ | .skp _ | .sknp _ | .ldVxK _ => true
  | .sys _ | .cls | .ldByte _ _ | .addByte _ _ | .ldReg _ _ | .orReg _ _ | .andReg _ _ | .xorReg _ _ | .addReg _ _ | .subReg _ _
  | .shr _ _ | .subnReg _ _ | .shl _ _ | .ldI _ | .rnd _ _ | .drw _ _ _ | .ldVxDt _ | .ldDtVx _ | .ldStVx _ | .addI _ | .ldF _
  | .ldB _ | .storeRegs _ | .loadRegs _ => false

/-- Whether an instruction reads the keypad (R25). -/
def readsKeys (i : Instr) : Bool :=
  match i with
  | .skp _ | .sknp _ | .ldVxK _ => true
  | .sys _ | .cls | .ret | .jp _ | .call _ | .seByte _ _ | .sneByte _ _ | .seReg _ _ _ | .sneReg _ _ _ | .jpV0 _ | .ldByte _ _
  | .addByte _ _ | .ldReg _ _ | .orReg _ _ | .andReg _ _ | .xorReg _ _ | .addReg _ _ | .subReg _ _ | .shr _ _ | .subnReg _ _
  | .shl _ _ | .ldI _ | .rnd _ _ | .drw _ _ _ | .ldVxDt _ | .ldDtVx _ | .ldStVx _ | .addI _ | .ldF _ | .ldB _ | .storeRegs _
  | .loadRegs _ => false

/-- The error an instruction raises in a state (R116, R117, R119), if any: CALL at depth 16, RET at depth 0, a range that ends
above 0xFFF. -/
def errorOf (i : Instr) (s : State) : Option ErrorKind :=
  match i with
  | .call _ => if s.sp.val = 16 then some .stackOverflow else none
  | .ret => if s.sp.val = 0 then some .stackUnderflow else none
  | .drw _ _ n => if 0 < n.toNat ∧ s.i.toNat + n.toNat > 0x1000 then some .outOfBoundsAddress else none
  | .ldB _ => if s.i.toNat + 2 > 0xFFF then some .outOfBoundsAddress else none
  | .storeRegs x | .loadRegs x => if s.i.toNat + x.toNat > 0xFFF then some .outOfBoundsAddress else none
  | .sys _ | .cls | .jp _ | .seByte _ _ | .sneByte _ _ | .seReg _ _ _ | .sneReg _ _ _ | .jpV0 _ | .ldByte _ _ | .addByte _ _
  | .ldReg _ _ | .orReg _ _ | .andReg _ _ | .xorReg _ _ | .addReg _ _ | .subReg _ _ | .shr _ _ | .subnReg _ _ | .shl _ _ | .ldI _
  | .rnd _ _ | .skp _ | .sknp _ | .ldVxDt _ | .ldVxK _ | .ldDtVx _ | .ldStVx _ | .addI _ | .ldF _ => none

/-- Whether the sprite of Dxyn, in state s, has a set bit at column c and row r of the screen (44_display.md R104, R105). -/
def spriteAt (s : State) (x y : Reg) (n : Nibble) (c r : Nat) : Bool :=
  decide ((s.getV x).toNat % 64 ≤ c ∧ c < (s.getV x).toNat % 64 + 8 ∧
    (s.getV y).toNat % 32 ≤ r ∧ r < (s.getV y).toNat % 32 + n.toNat) &&
  (Memory.get s.mem (s.i.toNat + (r - (s.getV y).toNat % 32))).toNat.testBit (7 - (c - (s.getV x).toNat % 64))

/-- Some pixel of the screen is under a set bit of the sprite. -/
def SpriteVisible (s : State) (x y : Reg) (n : Nibble) : Prop :=
  ∃ c r : Nat, c < 64 ∧ r < 32 ∧ spriteAt s x y n c r = true

/-- Some set pixel of the screen is under a set bit of the sprite. -/
def SpriteHits (s : State) (x y : Reg) (n : Nibble) : Prop :=
  ∃ c r : Nat, c < 64 ∧ r < 32 ∧ spriteAt s x y n c r = true ∧ Framebuffer.get s.fb c r = true

/-- Some unset pixel of the screen is under a set bit of the sprite. -/
def SpriteTurnsOn (s : State) (x y : Reg) (n : Nibble) : Prop :=
  ∃ c r : Nat, c < 64 ∧ r < 32 ∧ spriteAt s x y n c r = true ∧ Framebuffer.get s.fb c r = false

/-- The target of an unconditional jump is even (90_conflicts.md C2: an obligation of the program). -/
def EvenTarget (i : Instr) (s : State) : Prop :=
  match i with
  | .jp nnn | .call nnn => nnn.toNat % 2 = 0
  | .jpV0 nnn => (nnn.toNat + (s.getV reg0).toNat) % 2 = 0
  | _ => True

/-- PC and every live return address are even. -/
def EvenPc (s : State) : Prop :=
  s.pc.toNat % 2 = 0 ∧ ∀ (k : Nat) (h : k < 16), k < s.sp.val → (s.stack[k]'h).toNat % 2 = 0

/-- The states differ at most in stack entries at and above SP (10_state.md R22: stale entries). -/
def SameButStale (s t : State) : Prop :=
  t = { s with stack := t.stack } ∧
  ∀ (k : Nat) (h : k < 16), k < s.sp.val → t.stack[k]'h = s.stack[k]'h

/-- Push the addresses one after another. -/
def pushAll (s : State) : List Word → Except ErrorKind State
  | [] => .ok s
  | a :: as =>
    match s.push a with
    | .error k => .error k
    | .ok t => pushAll t as

/-- Pop n addresses, the first popped first. -/
def popAll (s : State) : Nat → Except ErrorKind (List Word × State)
  | 0 => .ok ([], s)
  | n + 1 =>
    match s.pop with
    | .error k => .error k
    | .ok (a, t) =>
      match popAll t n with
      | .error k => .error k
      | .ok (as, u) => .ok (a :: as, u)

end Sys2Proof.Machine
end

