-- ==== Sys2Proof/Certificates/Slice0/Obligations.lean ====
section
/-! DEFINITION. The statements for the provers, drawn from the numbered rules of spec/. `exec i s` runs i with PC already at
A + 2 (30_encoding.md R68), so `t.pc = s.pc` says that PC ends at A + 2. A statement that rests on one of the spec's own
decisions (D<n>) or on its general knowledge names the log entry. -/

open Sys2Proof Sys2Proof.Machine

/-! ### Decoding and the step -/

/-- Words of spec/30_encoding.md and spec/95_test_vectors.md L2.2, one or more per format of R57. A sanity statement. -/
def Obligations.WordsOfTheSpecDecode : Prop :=
  decode 0x0123#16 = .ok (.sys 0x123#12) ∧ decode 0x00E0#16 = .ok .cls ∧ decode 0x00EE#16 = .ok .ret ∧
  decode 0x01E0#16 = .ok (.sys 0x1E0#12) ∧ decode 0x1ABC#16 = .ok (.jp 0xABC#12) ∧
  decode 0x6A3C#16 = .ok (.ldByte 0xA#4 0x3C#8) ∧ decode 0x5121#16 = .ok (.seReg 0x1#4 0x2#4 0x1#4) ∧
  decode 0x8014#16 = .ok (.addReg 0x0#4 0x1#4) ∧ decode 0x8EEE#16 = .ok (.shl 0xE#4 0xE#4) ∧
  decode 0xD125#16 = .ok (.drw 0x1#4 0x2#4 0x5#4) ∧ decode 0xE19E#16 = .ok (.skp 0x1#4) ∧
  decode 0xFF65#16 = .ok (.loadRegs 0xF#4) ∧ decode 0x8008#16 = .error .noFamily8Function ∧
  decode 0xE09F#16 = .error .noFamilyEFunction ∧ decode 0xF0FF#16 = .error .noFamilyFFunction

/-- 30_encoding.md R61: family 8 is decoded on the low nibble. -/
def Obligations.FamilyEightDecodesOnLowNibble : Prop :=
  ∀ (x y : Reg) (n : Nibble),
    decode (BitVec.ofNat 16 (0x8000 + 256 * x.toNat + 16 * y.toNat + n.toNat)) =
      if n = 0x0#4 then .ok (.ldReg x y) else if n = 0x1#4 then .ok (.orReg x y)
      else if n = 0x2#4 then .ok (.andReg x y) else if n = 0x3#4 then .ok (.xorReg x y)
      else if n = 0x4#4 then .ok (.addReg x y) else if n = 0x5#4 then .ok (.subReg x y)
      else if n = 0x6#4 then .ok (.shr x y) else if n = 0x7#4 then .ok (.subnReg x y)
      else if n = 0xE#4 then .ok (.shl x y) else .error .noFamily8Function

/-- 30_encoding.md R62, R63: families E and F are decoded on the low byte. -/
def Obligations.FamiliesEAndFDecodeOnLowByte : Prop :=
  ∀ (x : Reg) (kk : Byte),
    (decode (BitVec.ofNat 16 (0xE000 + 256 * x.toNat + kk.toNat)) =
      if kk = 0x9E#8 then .ok (.skp x) else if kk = 0xA1#8 then .ok (.sknp x) else .error .noFamilyEFunction) ∧
    (decode (BitVec.ofNat 16 (0xF000 + 256 * x.toNat + kk.toNat)) =
      if kk = 0x07#8 then .ok (.ldVxDt x) else if kk = 0x0A#8 then .ok (.ldVxK x)
      else if kk = 0x15#8 then .ok (.ldDtVx x) else if kk = 0x18#8 then .ok (.ldStVx x)
      else if kk = 0x1E#8 then .ok (.addI x) else if kk = 0x29#8 then .ok (.ldF x)
      else if kk = 0x33#8 then .ok (.ldB x) else if kk = 0x55#8 then .ok (.storeRegs x)
      else if kk = 0x65#8 then .ok (.loadRegs x) else .error .noFamilyFFunction)

/-- 30_encoding.md R64: every word 5xyN is SE Vx, Vy and every word 9xyN is SNE Vx, Vy, and the low nibble makes no difference to
what they do. -/
def Obligations.LowNibbleIgnoredInFamilies5And9 : Prop :=
  ∀ (x y : Reg) (n : Nibble),
    decode (BitVec.ofNat 16 (0x5000 + 256 * x.toNat + 16 * y.toNat + n.toNat)) = .ok (.seReg x y n) ∧
    decode (BitVec.ofNat 16 (0x9000 + 256 * x.toNat + 16 * y.toNat + n.toNat)) = .ok (.sneReg x y n) ∧
    ∀ s : State, exec (.seReg x y n) s = exec (.seReg x y 0x0#4) s ∧ exec (.sneReg x y n) s = exec (.sneReg x y 0x0#4) s

/-- Every well-formed instruction is read back from its word: no bit of an encoding is dropped (R54, R57, R59 to R64). -/
def Obligations.DecodeOfEncode : Prop :=
  ∀ i : Instr, i.wellFormed = true → decode (encode i) = .ok i

/-- A decoded word is the encoding of what it decodes to, which is well-formed: each word has one meaning (R58). -/
def Obligations.EncodeOfDecode : Prop :=
  ∀ (w : Word) (i : Instr), decode w = .ok i → i.wellFormed = true ∧ encode i = w

/-- 30_encoding.md R65: `Unrecognized` is the result for exactly these words. The model answers the first bullet's words as the
table's SYS row (log 4). -/
def Obligations.UnrecognizedWordsAreExactlyThese : Prop :=
  ∀ w : Word,
    ((∃ nnn, decode w = .ok (.sys nnn)) ↔ (w.toNat < 0x1000 ∧ w.toNat ≠ 0x00E0 ∧ w.toNat ≠ 0x00EE)) ∧
    ((∃ u, decode w = .error u) ↔
      (w.toNat / 0x1000 = 0x8 ∧ w.toNat % 16 ∈ [0x8, 0x9, 0xA, 0xB, 0xC, 0xD, 0xF]) ∨
      (w.toNat / 0x1000 = 0xE ∧ w.toNat % 256 ∉ [0x9E, 0xA1]) ∨
      (w.toNat / 0x1000 = 0xF ∧ w.toNat % 256 ∉ [0x07, 0x0A, 0x15, 0x18, 0x1E, 0x29, 0x33, 0x55, 0x65]))

/-- R67, R39, R43: when the two bytes at PC, the lower address the more significant, decode to an instruction, the step is exec of
that instruction with PC moved past the word, and nothing else around it. -/
def Obligations.StepRunsDecodedInstruction : Prop :=
  ∀ (s : State) (w : Word) (i : Instr),
    s.pc.toNat ≤ 0xFFE →
    w.toNat = 256 * (Memory.get s.mem s.pc.toNat).toNat + (Memory.get s.mem (s.pc.toNat + 1)).toNat →
    decode w = .ok i →
    step s = exec i (s.setPc (s.pc + 2#16))

/-- R69: an `Unrecognized` word is a no-op of two bytes, and the step returns Ok with the marker (D19, log 4). -/
def Obligations.UnrecognizedWordIsNoOp : Prop :=
  ∀ (s : State) (w : Word) (u : Unrecognized),
    s.pc.toNat ≤ 0xFFE →
    w.toNat = 256 * (Memory.get s.mem s.pc.toNat).toNat + (Memory.get s.mem (s.pc.toNat + 1)).toNat →
    decode w = .error u →
    ∃ t, step s = .next t ∧ t.pc = s.pc + 2#16 ∧ SameButPc s t ∧ t.lastResult = .unrecognized w

/-- R39, R118(b): a fetch above 0xFFE raises OutOfBoundsAddress and changes nothing, PC included (D3, log 12). -/
def Obligations.FetchAboveMemoryRaises : Prop :=
  ∀ s : State, s.pc.toNat > 0xFFE → ∃ t, step s = .next t ∧ RaisedFrom s .outOfBoundsAddress t

/-- R58, R114, part A of spec/93: every step has an outcome, and it is never a stop: no fault, no refusal (log 1). -/
def Obligations.EveryStepAnswersNext : Prop := ∀ s : State, ∃ t, step s = .next t

/-! ### Invariants -/

/-- The machine's invariant (canonical memory; R30's live return addresses; R19's bound on PC; R114's results) is kept by every
step. -/
def Obligations.EveryStepKeepsInv : Prop := ∀ s t : State, s.Inv → step s = .next t → t.Inv

/-- The invariant holds at creation. -/
def Obligations.CreationMeetsInv : Prop := State.reset.Inv

/-- The invariant is kept by every operation of the host: load, step, tick, set key, read (R132). -/
def Obligations.HostOperationsKeepInv : Prop :=
  ∀ (c d : Session) (op : HostOp) (r : Reply), c.machine.Inv → c.apply op = .next (d, r) → d.machine.Inv

/-- L1.1 as 90_conflicts.md C2 restricts it: where the jump targets are even, a step keeps PC and the live return addresses
even (R16, R18). -/
def Obligations.EvenTargetsKeepPcEven : Prop :=
  ∀ s t : State, EvenPc s → (∀ (w : Word) (i : Instr), s.fetch = .ok w → decode w = .ok i → EvenTarget i s) →
    step s = .next t → EvenPc t

/-! ### Creation, memory -/

/-- R29, R34, R137: the state at creation. PC and the zeroed memory are the spec's; the zeros and falses of the other state are its
decision D1 (log 6); draws and lastResult, the model's own, are not stated. -/
def Obligations.CreationState : Prop :=
  State.reset.pc = 0x200#16 ∧
  (∀ a : Nat, (a < 0x050 ∨ 0x0A0 ≤ a) → Memory.get State.reset.mem a = 0x00#8) ∧
  (∀ x : Reg, State.reset.getV x = 0x00#8) ∧ State.reset.i = 0#16 ∧ State.reset.sp.val = 0 ∧
  (∀ (k : Nat) (h : k < 16), State.reset.stack[k]'h = 0#16) ∧ State.reset.dt = 0#8 ∧ State.reset.st = 0#8 ∧
  (∀ (k : Nat) (h : k < 16), State.reset.key[k]'h = false) ∧
  (∀ c r : Nat, Framebuffer.get State.reset.fb c r = false)

/-- R36: the glyph bytes at creation, digit by digit (PRESUMED from the spec's general knowledge, D25, log 7). -/
def Obligations.FontBytesAtCreation : Prop :=
  (List.range 80).map (fun k => (Memory.get State.reset.mem (0x050 + k)).toNat) =
    [0xF0, 0x90, 0x90, 0x90, 0xF0, 0x20, 0x60, 0x20, 0x20, 0x70, 0xF0, 0x10, 0xF0, 0x80, 0xF0, 0xF0, 0x10, 0xF0, 0x10, 0xF0] ++
    [0x90, 0x90, 0xF0, 0x10, 0x10, 0xF0, 0x80, 0xF0, 0x10, 0xF0, 0xF0, 0x80, 0xF0, 0x90, 0xF0, 0xF0, 0x10, 0x20, 0x40, 0x40] ++
    [0xF0, 0x90, 0xF0, 0x90, 0xF0, 0xF0, 0x90, 0xF0, 0x10, 0xF0, 0xF0, 0x90, 0xF0, 0x90, 0x90, 0xE0, 0x90, 0xE0, 0x90, 0xE0] ++
    [0xF0, 0x80, 0x80, 0x80, 0xF0, 0xE0, 0x90, 0x90, 0x90, 0xE0, 0xF0, 0x80, 0xF0, 0x80, 0xF0, 0xF0, 0x80, 0xF0, 0x80, 0x80]

/-- Two canonical memories that read alike at every address of the machine are the same data: the form is canonical. -/
def Obligations.CanonicalMemoriesAreEqual : Prop :=
  ∀ m m' : Memory, Memory.wf m → Memory.wf m' → (∀ a : Nat, a ≤ 0xFFF → Memory.get m a = Memory.get m' a) → m = m'

/-- R50: two bytes that Fx55 stores at PC are what the next fetch reads, the first as the high byte (R43): no stale instruction. -/
def Obligations.FetchSeesStoredBytes : Prop :=
  ∀ (x : Reg) (s : State), Memory.wf s.mem → 1 ≤ x.toNat → s.i.toNat + x.toNat ≤ 0xFFF →
    ∃ (t : State) (w : Word), exec (.storeRegs x) s = .next t ∧ (t.setPc s.i).fetch = .ok w ∧
      w.toNat = 256 * (s.getV 0x0#4).toNat + (s.getV 0x1#4).toNat

/-! ### Control flow -/

/-- R73, R69: a word of the SYS class changes nothing and is reported as unrecognized (D5, log 14). -/
def Obligations.SysIsNoOp : Prop :=
  ∀ (nnn : Addr12) (s : State), ∃ t, exec (.sys nnn) s = .next t ∧ t.pc = s.pc ∧ SameButPc s t ∧
    ∃ w : Word, w.toNat = nnn.toNat ∧ t.lastResult = .unrecognized w

/-- R74, R81: JP goes to nnn and JP V0 to nnn + V0, whatever the target's parity, and change nothing else (D28, D13, log 19). -/
def Obligations.JumpsGoToTheirTarget : Prop :=
  ∀ (nnn : Addr12) (s : State),
    (∃ t, exec (.jp nnn) s = .next t ∧ t.pc.toNat = nnn.toNat ∧ SameButPc s t ∧ t.lastResult = .ok) ∧
    (∃ t, exec (.jpV0 nnn) s = .next t ∧ t.pc.toNat = nnn.toNat + (s.getV 0x0#4).toNat ∧ SameButPc s t ∧ t.lastResult = .ok)

/-- R75, R21: CALL below depth 16 pushes PC (A + 2) and goes to nnn (D28, log 19). -/
def Obligations.CallPushesReturnAddress : Prop :=
  ∀ (nnn : Addr12) (s : State), s.sp.val < 16 →
    ∃ t, exec (.call nnn) s = .next t ∧ t.pc.toNat = nnn.toNat ∧ t.sp.val = s.sp.val + 1 ∧
      (∀ (k : Nat) (h : k < 16), t.stack[k]'h = if k = s.sp.val then s.pc else s.stack[k]'h) ∧
      SameButPcAndStack s t ∧ t.lastResult = .ok

/-- R76, R22: RET above depth 0 pops the top entry into PC and leaves the array as it is. -/
def Obligations.ReturnPopsReturnAddress : Prop :=
  ∀ (s : State) (k : Nat) (h : k < 16), s.sp.val = k + 1 →
    ∃ t, exec .ret s = .next t ∧ t.pc = s.stack[k]'h ∧ t.sp.val = k ∧ t.stack = s.stack ∧
      SameButPcAndStack s t ∧ t.lastResult = .ok

/-- R116, R117: CALL at depth 16 raises StackOverflow and RET at depth 0 StackUnderflow; by R118(a) nothing else has changed (D2,
log 1). -/
def Obligations.StackErrorsAtItsEnds : Prop :=
  (∀ (nnn : Addr12) (s : State), s.sp.val = 16 → ∃ t, exec (.call nnn) s = .next t ∧ RaisedFrom s .stackOverflow t) ∧
  (∀ s : State, s.sp.val = 0 → ∃ t, exec .ret s = .next t ∧ RaisedFrom s .stackUnderflow t)

/-- R20 to R22, L1.8: the call stack returns what was pushed, last in first out, up to 16 deep. -/
def Obligations.StackIsLastInFirstOut : Prop :=
  ∀ (s : State) (as : List Word), s.sp.val + as.length ≤ 16 →
    ∃ t u : State, pushAll s as = .ok t ∧ t.sp.val = s.sp.val + as.length ∧
      popAll t as.length = .ok (as.reverse, u) ∧ u.sp = s.sp

/-- R77, R78: SE and SNE with a byte skip on equality and inequality (D28, log 19). -/
def Obligations.ByteSkips : Prop :=
  ∀ (x : Reg) (kk : Byte) (s : State),
    (∃ t, exec (.seByte x kk) s = .next t ∧ t.pc = (if (s.getV x).toNat = kk.toNat then s.pc + 2#16 else s.pc) ∧
      SameButPc s t ∧ t.lastResult = .ok) ∧
    (∃ t, exec (.sneByte x kk) s = .next t ∧ t.pc = (if (s.getV x).toNat = kk.toNat then s.pc else s.pc + 2#16) ∧
      SameButPc s t ∧ t.lastResult = .ok)

/-- R79, R80: SE and SNE with two registers (D28, log 19). -/
def Obligations.RegisterSkips : Prop :=
  ∀ (x y : Reg) (n : Nibble) (s : State),
    (∃ t, exec (.seReg x y n) s = .next t ∧
      t.pc = (if (s.getV x).toNat = (s.getV y).toNat then s.pc + 2#16 else s.pc) ∧ SameButPc s t ∧ t.lastResult = .ok) ∧
    (∃ t, exec (.sneReg x y n) s = .next t ∧
      t.pc = (if (s.getV x).toNat = (s.getV y).toNat then s.pc else s.pc + 2#16) ∧ SameButPc s t ∧ t.lastResult = .ok)

/-! ### Registers and arithmetic -/

/-- R84: 6xkk is LD Vx, kk, and it loads the byte; VF is written only as the destination. -/
def Obligations.LoadByteResult : Prop :=
  ∀ (x : Reg) (kk : Byte) (s : State),
    decode (BitVec.ofNat 16 (0x6000 + 256 * x.toNat + kk.toNat)) = .ok (.ldByte x kk) ∧
    ∃ t, exec (.ldByte x kk) s = .next t ∧ t.getV x = kk ∧ SameRegsBut x s t ∧ SameButRegs s t ∧ t.lastResult = .ok

/-- R85: 7xkk is ADD Vx, kk, which wraps at 8 bits and leaves VF alone unless x is F. -/
def Obligations.AddByteResult : Prop :=
  ∀ (x : Reg) (kk : Byte) (s : State),
    decode (BitVec.ofNat 16 (0x7000 + 256 * x.toNat + kk.toNat)) = .ok (.addByte x kk) ∧
    ∃ t, exec (.addByte x kk) s = .next t ∧ (t.getV x).toNat = ((s.getV x).toNat + kk.toNat) % 256 ∧
      SameRegsBut x s t ∧ SameButRegs s t ∧ t.lastResult = .ok

/-- R86 to R89: LD, OR, AND and XOR of two registers write Vx only; VF is no flag of theirs (D28, D7, log 16, log 19). -/
def Obligations.CopyAndLogicResults : Prop :=
  ∀ (x y : Reg) (s : State),
    (∃ t, exec (.ldReg x y) s = .next t ∧ t.getV x = s.getV y ∧ SameRegsBut x s t ∧ SameButRegs s t ∧ t.lastResult = .ok) ∧
    (∃ t, exec (.orReg x y) s = .next t ∧ (t.getV x).toNat = (s.getV x).toNat ||| (s.getV y).toNat ∧
      SameRegsBut x s t ∧ SameButRegs s t ∧ t.lastResult = .ok) ∧
    (∃ t, exec (.andReg x y) s = .next t ∧ (t.getV x).toNat = (s.getV x).toNat &&& (s.getV y).toNat ∧
      SameRegsBut x s t ∧ SameButRegs s t ∧ t.lastResult = .ok) ∧
    (∃ t, exec (.xorReg x y) s = .next t ∧ (t.getV x).toNat = (s.getV x).toNat ^^^ (s.getV y).toNat ∧
      SameRegsBut x s t ∧ SameButRegs s t ∧ t.lastResult = .ok)

/-- R90, R83: the sum mod 256 and the carry; the flag is written last, so VF keeps it when x is F (D6, log 15). -/
def Obligations.AddWithCarryResult : Prop :=
  ∀ (x y : Reg) (s : State),
    ∃ t, exec (.addReg x y) s = .next t ∧
      (x ≠ 0xF#4 → (t.getV x).toNat = ((s.getV x).toNat + (s.getV y).toNat) % 256) ∧
      (t.getV 0xF#4).toNat = (if (s.getV x).toNat + (s.getV y).toNat > 255 then 1 else 0) ∧
      (∀ j : Reg, j ≠ x → j ≠ 0xF#4 → t.getV j = s.getV j) ∧ SameButRegs s t ∧ t.lastResult = .ok

/-- R91, R93, R83: the differences mod 256 and the strict no-borrow flag, written last (D6, log 15; SUBN's operand order is D14,
log 19). -/
def Obligations.SubtractResults : Prop :=
  ∀ (x y : Reg) (s : State),
    (∃ t, exec (.subReg x y) s = .next t ∧
      (x ≠ 0xF#4 → (t.getV x).toNat = (256 + (s.getV x).toNat - (s.getV y).toNat) % 256) ∧
      (t.getV 0xF#4).toNat = (if (s.getV x).toNat > (s.getV y).toNat then 1 else 0) ∧
      (∀ j : Reg, j ≠ x → j ≠ 0xF#4 → t.getV j = s.getV j) ∧ SameButRegs s t ∧ t.lastResult = .ok) ∧
    (∃ t, exec (.subnReg x y) s = .next t ∧
      (x ≠ 0xF#4 → (t.getV x).toNat = (256 + (s.getV y).toNat - (s.getV x).toNat) % 256) ∧
      (t.getV 0xF#4).toNat = (if (s.getV y).toNat > (s.getV x).toNat then 1 else 0) ∧
      (∀ j : Reg, j ≠ x → j ≠ 0xF#4 → t.getV j = s.getV j) ∧ SameButRegs s t ∧ t.lastResult = .ok)

/-- R92, R94: the shifts of Vx in place, whatever y, and the bit shifted out, written last (D6, D15, log 15, log 20). -/
def Obligations.ShiftResults : Prop :=
  ∀ (x y : Reg) (s : State),
    (∃ t, exec (.shr x y) s = .next t ∧
      (x ≠ 0xF#4 → (t.getV x).toNat = (s.getV x).toNat / 2) ∧ (t.getV 0xF#4).toNat = (s.getV x).toNat % 2 ∧
      (∀ j : Reg, j ≠ x → j ≠ 0xF#4 → t.getV j = s.getV j) ∧ SameButRegs s t ∧ t.lastResult = .ok) ∧
    (∃ t, exec (.shl x y) s = .next t ∧
      (x ≠ 0xF#4 → (t.getV x).toNat = 2 * (s.getV x).toNat % 256) ∧ (t.getV 0xF#4).toNat = (s.getV x).toNat / 128 ∧
      (∀ j : Reg, j ≠ x → j ≠ 0xF#4 → t.getV j = s.getV j) ∧ SameButRegs s t ∧ t.lastResult = .ok)

/-- R95: RND takes one draw and masks it, so no bit outside kk is set; it holds for every draw, since Config.randomByte is free
(log 5). -/
def Obligations.RandomResult : Prop :=
  ∀ (x : Reg) (kk : Byte) (s : State),
    ∃ t, exec (.rnd x kk) s = .next t ∧ t.getV x = Config.randomByte s.draws &&& kk ∧ t.getV x &&& ~~~kk = 0#8 ∧
      t.draws = s.draws + 1 ∧ SameRegsBut x s t ∧ t.i = s.i ∧ t.pc = s.pc ∧ SameStack s t ∧ SameTimers s t ∧
      SameMemory s t ∧ SameScreenAndKeys s t ∧ t.lastResult = .ok

/-! ### Index and memory -/

/-- R96, R97: LD I, nnn, and ADD I, Vx wrapping at 16 bits with VF untouched (D28, D8, log 16, log 19). -/
def Obligations.IndexLoadAndAddResults : Prop :=
  (∀ (nnn : Addr12) (s : State),
    ∃ t, exec (.ldI nnn) s = .next t ∧ t.i.toNat = nnn.toNat ∧ SameButI s t ∧ t.lastResult = .ok) ∧
  (∀ (x : Reg) (s : State),
    ∃ t, exec (.addI x) s = .next t ∧ t.i.toNat = (s.i.toNat + (s.getV x).toNat) % 65536 ∧ SameButI s t ∧ t.lastResult = .ok)

/-- R98: Fx29 is LD F, Vx: I becomes the font base plus 5 times the register, with no mask, and nothing is read. -/
def Obligations.GlyphAddressResult : Prop :=
  ∀ (x : Reg) (s : State),
    decode (BitVec.ofNat 16 (0xF029 + 256 * x.toNat)) = .ok (.ldF x) ∧
    ∃ t, exec (.ldF x) s = .next t ∧ t.i.toNat = 0x050 + 5 * (s.getV x).toNat ∧ SameButI s t ∧ t.lastResult = .ok

/-- R99: the three decimal digits go to I, I+1, I+2; above 0xFFF the instruction raises OutOfBoundsAddress and writes nothing. -/
def Obligations.DecimalDigitsStored : Prop :=
  ∀ (x : Reg) (s : State), Memory.wf s.mem →
    (s.i.toNat + 2 ≤ 0xFFF →
      ∃ t, exec (.ldB x) s = .next t ∧
        (Memory.get t.mem s.i.toNat).toNat = (s.getV x).toNat / 100 ∧
        (Memory.get t.mem (s.i.toNat + 1)).toNat = (s.getV x).toNat / 10 % 10 ∧
        (Memory.get t.mem (s.i.toNat + 2)).toNat = (s.getV x).toNat % 10 ∧
        SameMemoryOutside s.i.toNat 3 s t ∧ SameButMemory s t ∧ t.lastResult = .ok) ∧
    (s.i.toNat + 2 > 0xFFF → ∃ t, exec (.ldB x) s = .next t ∧ RaisedFrom s .outOfBoundsAddress t)

/-- R100: V0..Vx go to I..I+x and I is unchanged; above 0xFFF the instruction raises OutOfBoundsAddress and writes nothing. -/
def Obligations.RegistersStored : Prop :=
  ∀ (x : Reg) (s : State), Memory.wf s.mem →
    (s.i.toNat + x.toNat ≤ 0xFFF →
      ∃ t, exec (.storeRegs x) s = .next t ∧
        (∀ k : Reg, k.toNat ≤ x.toNat → Memory.get t.mem (s.i.toNat + k.toNat) = s.getV k) ∧
        SameMemoryOutside s.i.toNat (x.toNat + 1) s t ∧ SameButMemory s t ∧ t.lastResult = .ok) ∧
    (s.i.toNat + x.toNat > 0xFFF → ∃ t, exec (.storeRegs x) s = .next t ∧ RaisedFrom s .outOfBoundsAddress t)

/-- R101: I..I+x go to V0..Vx and I is unchanged; above 0xFFF the instruction raises OutOfBoundsAddress and writes nothing. -/
def Obligations.RegistersLoaded : Prop :=
  ∀ (x : Reg) (s : State),
    (s.i.toNat + x.toNat ≤ 0xFFF →
      ∃ t, exec (.loadRegs x) s = .next t ∧
        (∀ k : Reg, k.toNat ≤ x.toNat → t.getV k = Memory.get s.mem (s.i.toNat + k.toNat)) ∧
        (∀ k : Reg, k.toNat > x.toNat → t.getV k = s.getV k) ∧ SameButRegs s t ∧ t.lastResult = .ok) ∧
    (s.i.toNat + x.toNat > 0xFFF → ∃ t, exec (.loadRegs x) s = .next t ∧ RaisedFrom s .outOfBoundsAddress t)

/-- R100, R101, L2.5 row 18: what Fx55 stores, Fx65 at the same I brings back, whatever the registers hold in between. -/
def Obligations.StoreThenLoadRestoresRegisters : Prop :=
  ∀ (x : Reg) (s : State) (regs : Vector Byte 16), Memory.wf s.mem → s.i.toNat + x.toNat ≤ 0xFFF →
    ∃ t u : State, exec (.storeRegs x) s = .next t ∧ exec (.loadRegs x) { t with v := regs } = .next u ∧
      ∀ k : Reg, k.toNat ≤ x.toNat → u.getV k = s.getV k

/-! ### Display -/

/-- R103: CLS sets every pixel to unset and changes nothing else. That 00E0 alone is CLS, all 16 bits matched, is the spec's decision
D5, which the model follows (DESIGN CHOICE, log 14). -/
def Obligations.ClearScreenResult : Prop :=
  (∀ w : Word, decode w = .ok .cls ↔ w = 0x00E0#16) ∧
  ∀ s : State, ∃ t, exec .cls s = .next t ∧ (∀ c r : Nat, c < 64 → r < 32 → Framebuffer.get t.fb c r = false) ∧
    SameRegs s t ∧ SameButRegsAndScreen s t ∧ t.lastResult = .ok

/-- R104, R105, R119: each pixel under a set, unclipped sprite bit is inverted, no other pixel changes, and VF says whether a set
pixel was turned off; n = 0 draws nothing and sets VF to 0. The origin wraps, a pixel does not. Rows that end above 0xFFF, clipped
ones counted, raise OutOfBoundsAddress and change nothing. Bit order D26 (log 22), n = 0 and the checked rows D10 (log 17), x or
y = F D6 (log 15). -/
def Obligations.DrawResult : Prop :=
  ∀ (x y : Reg) (n : Nibble) (s : State),
    ((n.toNat = 0 ∨ s.i.toNat + n.toNat - 1 ≤ 0xFFF) →
      ∃ t, exec (.drw x y n) s = .next t ∧
        (∀ c r : Nat, c < 64 → r < 32 →
          Framebuffer.get t.fb c r = Bool.xor (Framebuffer.get s.fb c r) (spriteAt s x y n c r)) ∧
        (SpriteHits s x y n → t.getV 0xF#4 = 1#8) ∧ (¬SpriteHits s x y n → t.getV 0xF#4 = 0#8) ∧
        SameRegsBut 0xF#4 s t ∧ SameButRegsAndScreen s t ∧ t.lastResult = .ok) ∧
    (0 < n.toNat → s.i.toNat + n.toNat - 1 > 0xFFF →
      ∃ t, exec (.drw x y n) s = .next t ∧ RaisedFrom s .outOfBoundsAddress t)

/-- R106's first half and R105: a second draw at the same origin restores the screen; VF is 1 after it exactly when the first draw
turned a pixel on, and that pixel is now turned off (log 28). -/
def Obligations.DrawTwiceRestoresScreen : Prop :=
  ∀ (x y : Reg) (n : Nibble) (s t u : State), (n.toNat = 0 ∨ s.i.toNat + n.toNat - 1 ≤ 0xFFF) →
    exec (.drw x y n) s = .next t → (t.getV x).toNat % 64 = (s.getV x).toNat % 64 →
    (t.getV y).toNat % 32 = (s.getV y).toNat % 32 → exec (.drw x y n) t = .next u →
    u.fb = s.fb ∧ (SpriteTurnsOn s x y n → u.getV 0xF#4 = 1#8) ∧ (¬SpriteTurnsOn s x y n → u.getV 0xF#4 = 0#8)

/-- R106's second half as it is written: the second draw sets VF exactly when the sprite shows somewhere on the screen. It FAILS:
over a screen where every pixel under the sprite is set, the first draw clears them and the second turns them on again, so by R105
the second sets VF to 0 (log 28). -/
def Obligations.SecondDrawFlagAsR106Words : Prop :=
  ∀ (x y : Reg) (n : Nibble) (s t u : State), (n.toNat = 0 ∨ s.i.toNat + n.toNat - 1 ≤ 0xFFF) →
    exec (.drw x y n) s = .next t → (t.getV x).toNat % 64 = (s.getV x).toNat % 64 →
    (t.getV y).toNat % 32 = (s.getV y).toNat % 32 → exec (.drw x y n) t = .next u →
    (u.getV 0xF#4 = 1#8 ↔ SpriteVisible s x y n)

/-! ### Keys and timers -/

/-- R107 to R109: SKP and SKNP look at the key numbered by Vx, and a number above 0xF reads as not pressed (D11, D28, log 18,
log 19). -/
def Obligations.KeySkips : Prop :=
  ∀ (x : Reg) (s : State),
    (∃ t, exec (.skp x) s = .next t ∧
      (∀ h : (s.getV x).toNat < 16, t.pc = if s.key[(s.getV x).toNat]'h = true then s.pc + 2#16 else s.pc) ∧
      (16 ≤ (s.getV x).toNat → t.pc = s.pc) ∧ SameButPc s t ∧ t.lastResult = .ok) ∧
    (∃ t, exec (.sknp x) s = .next t ∧
      (∀ h : (s.getV x).toNat < 16, t.pc = if s.key[(s.getV x).toNat]'h = true then s.pc else s.pc + 2#16) ∧
      (16 ≤ (s.getV x).toNat → t.pc = s.pc + 2#16) ∧ SameButPc s t ∧ t.lastResult = .ok)

/-- R110: the least pressed key goes into Vx; with none pressed PC goes back by 2 and nothing else changes. -/
def Obligations.WaitForKeyResult : Prop :=
  ∀ (x : Reg) (s : State),
    (∀ (k : Nat) (h : k < 16), s.key[k]'h = true → (∀ (j : Nat) (hj : j < k), s.key[j]'(Nat.lt_trans hj h) = false) →
      ∃ t, exec (.ldVxK x) s = .next t ∧ (t.getV x).toNat = k ∧ SameRegsBut x s t ∧ SameButRegs s t ∧ t.lastResult = .ok) ∧
    ((∀ (k : Nat) (h : k < 16), s.key[k]'h = false) →
      ∃ t, exec (.ldVxK x) s = .next t ∧ t.pc = s.pc - 2#16 ∧ SameButPc s t ∧ t.lastResult = .ok)

/-- R111 to R113: the delay timer is read and both timers are set from Vx (D28, log 19). -/
def Obligations.TimerInstructionResults : Prop :=
  ∀ (x : Reg) (s : State),
    (∃ t, exec (.ldVxDt x) s = .next t ∧ t.getV x = s.dt ∧ SameRegsBut x s t ∧ SameButRegs s t ∧ t.lastResult = .ok) ∧
    (∃ t, exec (.ldDtVx x) s = .next t ∧ t.dt = s.getV x ∧ t.st = s.st ∧ SameButTimers s t ∧ t.lastResult = .ok) ∧
    (∃ t, exec (.ldStVx x) s = .next t ∧ t.st = s.getV x ∧ t.dt = s.dt ∧ SameButTimers s t ∧ t.lastResult = .ok)

/-- R126, R23: n ticks take n from each timer, never below 0, and touch nothing else (D16, log 10). -/
def Obligations.TicksCountDownToZero : Prop :=
  ∀ (n : Nat) (s : State),
    (State.tick^[n] s).dt.toNat = s.dt.toNat - n ∧ (State.tick^[n] s).st.toNat = s.st.toNat - n ∧
    SameButTimers s (State.tick^[n] s) ∧ (State.tick^[n] s).lastResult = s.lastResult

/-! ### The host -/

/-- R139, R140: the ROM is copied verbatim from 0x200 on and nothing else changes; one longer than 4096 - 0x200 bytes is rejected
with RomTooLarge, and the machine is left as it was. -/
def Obligations.RomLoadCopiesOrRejects : Prop :=
  ∀ (s : State) (rom : List Byte), Memory.wf s.mem →
    (rom.length ≤ 4096 - 0x200 →
      ∃ t, s.loadRom rom = .ok t ∧ (∀ (k : Nat) (h : k < rom.length), Memory.get t.mem (0x200 + k) = rom[k]'h) ∧
        SameMemoryOutside 0x200 rom.length s t ∧ SameButMemory s t ∧ t.lastResult = s.lastResult) ∧
    (rom.length > 4096 - 0x200 → s.loadRom rom = .error .romTooLarge ∧
      (Session.mk s .fresh).apply (.load rom) = .next (Session.mk s .fresh, .loadErr .romTooLarge))

/-- R140, R141: within a session a rejected load leaves everything as it was, a load goes through once before the first step, and
one after a load or after a step is refused (D20, log 11). -/
def Obligations.SessionLoadsAtMostOnce : Prop :=
  (∀ (m : State) (rom : List Byte), rom.length > 3584 →
    (Session.mk m .fresh).apply (.load rom) = .next (Session.mk m .fresh, .loadErr .romTooLarge)) ∧
  (∀ (m : State) (rom : List Byte), rom.length ≤ 3584 →
    ∃ t, (Session.mk m .fresh).apply (.load rom) = .next (Session.mk t .loaded, .loadOk)) ∧
  (∀ (m : State) (rom : List Byte), (Session.mk m .loaded).apply (.load rom) = .refused .loadNotAllowed) ∧
  (∀ (m : State) (rom : List Byte), (Session.mk m .running).apply (.load rom) = .refused .loadNotAllowed) ∧
  (∀ (c d : Session) (r : Reply), c.apply .step = .next (d, r) → d.phase = .running ∧ r = .stepped d.machine.lastResult)

/-- R131, R132: setting a key changes that key only, and a key number above 15 is refused (log 11). -/
def Obligations.SetKeyChangesOneKey : Prop :=
  ∀ (c : Session) (k : Nat) (b : Bool),
    (k < 16 → ∃ d, c.apply (.setKey k b) = .next (d, .nothing) ∧ d.phase = c.phase ∧
      (∀ (j : Nat) (h : j < 16), d.machine.key[j]'h = if j = k then b else c.machine.key[j]'h) ∧
      d.machine = { c.machine with key := d.machine.key }) ∧
    (16 ≤ k → c.apply (.setKey k b) = .refused .noSuchKey)

/-! ### Whole-machine rules -/

/-- R118(a): an erroring instruction changes nothing: PC keeps the pre-increment, and no register, stack entry, byte, pixel or
timer is written (D2, log 1). -/
def Obligations.ErrorsHaveNoPartialEffect : Prop :=
  ∀ (i : Instr) (s t : State) (k : ErrorKind), exec i s = .next t → t.lastResult = .err k → RaisedFrom s k t

/-- R116, R117, R119, R123: exactly these instructions raise, exactly then, and each its one error. -/
def Obligations.ErrorsAreExactlyThese : Prop :=
  ∀ (i : Instr) (s t : State) (k : ErrorKind), exec i s = .next t → (t.lastResult = .err k ↔ errorOf i s = some k)

/-- R12, R14: no instruction writes a general register but its destination, and VF only as a flag writer or as that
destination (D6, D7, D8, log 15, log 16). -/
def Obligations.OnlyDestinationsAreWritten : Prop :=
  ∀ (i : Instr) (j : Reg) (s t : State), exec i s = .next t → writesReg i j = false → t.getV j = s.getV j

/-- R17: every instruction outside the control transfers leaves PC at A + 2. -/
def Obligations.OnlyControlTransfersMovePc : Prop :=
  ∀ (i : Instr) (s t : State), exec i s = .next t → writesPc i = false → t.pc = s.pc

/-- R15, R20 to R26, R42, R53: memory is written by Fx33 and Fx55 only, I by Annn, Fx1E and Fx29 only, the call stack by CALL and
RET only, DT and ST by their set instructions only, the framebuffer by CLS and DRW only, and the keypad by no instruction. -/
def Obligations.EachPieceHasItsWriters : Prop :=
  ∀ (i : Instr) (s t : State), exec i s = .next t →
    ((∀ x, i ≠ .ldB x) → (∀ x, i ≠ .storeRegs x) → t.mem = s.mem) ∧
    ((∀ a, i ≠ .ldI a) → (∀ x, i ≠ .addI x) → (∀ x, i ≠ .ldF x) → t.i = s.i) ∧
    ((∀ a, i ≠ .call a) → i ≠ .ret → SameStack s t) ∧
    ((∀ x, i ≠ .ldDtVx x) → t.dt = s.dt) ∧ ((∀ x, i ≠ .ldStVx x) → t.st = s.st) ∧
    (i ≠ .cls → (∀ x y n, i ≠ .drw x y n) → t.fb = s.fb) ∧ t.key = s.key

/-- R25, R67: an instruction other than Ex9E, ExA1 and Fx0A does the same whatever keys are pressed. -/
def Obligations.OnlyKeyInstructionsReadKeys : Prop :=
  ∀ (i : Instr) (s t : State) (keys : Vector Bool 16), readsKeys i = false → exec i s = .next t →
    exec i { s with key := keys } = .next { t with key := keys }

/-- R24: no instruction reads ST. Two machines that differ in ST only still differ in ST only after a step, and return the same
result. -/
def Obligations.SoundTimerIsUnobservable : Prop :=
  ∀ (s t : State) (b : Byte), step s = .next t →
    ∃ c : Byte, step { s with st := b } = .next { t with st := c }

/-- R22: no step observes a stale stack entry. Two machines that differ only above SP still differ only there after a step (D17,
log 21). -/
def Obligations.StaleStackEntriesAreUnobservable : Prop :=
  ∀ s s' t : State, SameButStale s s' → step s = .next t → ∃ t', step s' = .next t' ∧ SameButStale t t'
end

