-- ==== Sys2Proof/Laws/Decode.lean ====
section
/-! SUPPORT. The fields of 30_encoding.md R54 and the formats of R57 as numbers, and the fields of a word built from a format. -/

namespace Sys2Proof

/-- op = w[15:12] (30_encoding.md R54). -/
theorem fieldOp_toNat (w : Word) : (fieldOp w).toNat = w.toNat / 4096 := by
  unfold fieldOp; rw [BitVec.extractLsb'_toNat, Nat.shiftRight_eq_div_pow]; have := w.isLt; omega

/-- x = w[11:8] (R54). -/
theorem fieldX_toNat (w : Word) : (fieldX w).toNat = w.toNat / 256 % 16 := by
  unfold fieldX; rw [BitVec.extractLsb'_toNat, Nat.shiftRight_eq_div_pow]

/-- y = w[7:4] (R54). -/
theorem fieldY_toNat (w : Word) : (fieldY w).toNat = w.toNat / 16 % 16 := by
  unfold fieldY; rw [BitVec.extractLsb'_toNat, Nat.shiftRight_eq_div_pow]

/-- n = w[3:0] (R54). -/
theorem fieldN_toNat (w : Word) : (fieldN w).toNat = w.toNat % 16 := by
  unfold fieldN; rw [BitVec.extractLsb'_toNat, Nat.shiftRight_eq_div_pow]; omega

/-- kk = w[7:0] (R54). -/
theorem fieldKK_toNat (w : Word) : (fieldKK w).toNat = w.toNat % 256 := by
  unfold fieldKK; rw [BitVec.extractLsb'_toNat, Nat.shiftRight_eq_div_pow]; omega

/-- nnn = w[11:0] (R54). -/
theorem fieldNNN_toNat (w : Word) : (fieldNNN w).toNat = w.toNat % 4096 := by
  unfold fieldNNN; rw [BitVec.extractLsb'_toNat, Nat.shiftRight_eq_div_pow]; omega

/-- A concatenation as a number, the first part the more significant (00_scope.md R7). -/
theorem append_toNat {n m : Nat} (a : BitVec n) (b : BitVec m) : (a ++ b).toNat = a.toNat * 2 ^ m + b.toNat := by
  rw [BitVec.toNat_append, ← Nat.shiftLeft_add_eq_or_of_lt b.isLt, Nat.shiftLeft_eq]

/-- The number of a word of format NNN (R57). -/
theorem formatNNN_toNat (op : Nibble) (nnn : Addr12) : (formatNNN op nnn).toNat = 4096 * op.toNat + nnn.toNat := by
  unfold formatNNN; rw [append_toNat]; omega

/-- The number of a word of format XKK (R57). -/
theorem formatXKK_toNat (op : Nibble) (x : Reg) (kk : Byte) :
    (formatXKK op x kk).toNat = 4096 * op.toNat + 256 * x.toNat + kk.toNat := by
  unfold formatXKK; rw [append_toNat, append_toNat]; omega

/-- The number of a word of formats XY, XYF and XYN (R57). -/
theorem formatXYN_toNat (op : Nibble) (x y : Reg) (n : Nibble) :
    (formatXYN op x y n).toNat = 4096 * op.toNat + 256 * x.toNat + 16 * y.toNat + n.toNat := by
  unfold formatXYN; rw [append_toNat, append_toNat, append_toNat]; omega

/-- The fields of a word of format NNN. -/
theorem fields_NNN (op : Nibble) (nnn : Addr12) :
    fieldOp (formatNNN op nnn) = op ∧ fieldNNN (formatNNN op nnn) = nnn := by
  have := op.isLt; have := nnn.isLt
  constructor <;> apply BitVec.eq_of_toNat_eq
  · rw [fieldOp_toNat, formatNNN_toNat]; omega
  · rw [fieldNNN_toNat, formatNNN_toNat]; omega

/-- The fields of a word of format XKK. -/
theorem fields_XKK (op : Nibble) (x : Reg) (kk : Byte) :
    fieldOp (formatXKK op x kk) = op ∧ fieldX (formatXKK op x kk) = x ∧ fieldKK (formatXKK op x kk) = kk := by
  have := op.isLt; have := x.isLt; have := kk.isLt
  refine ⟨?_, ?_, ?_⟩ <;> apply BitVec.eq_of_toNat_eq
  · rw [fieldOp_toNat, formatXKK_toNat]; omega
  · rw [fieldX_toNat, formatXKK_toNat]; omega
  · rw [fieldKK_toNat, formatXKK_toNat]; omega

/-- The fields of a word of formats XY, XYF and XYN. -/
theorem fields_XYN (op : Nibble) (x y : Reg) (n : Nibble) :
    fieldOp (formatXYN op x y n) = op ∧ fieldX (formatXYN op x y n) = x ∧
      fieldY (formatXYN op x y n) = y ∧ fieldN (formatXYN op x y n) = n := by
  have := op.isLt; have := x.isLt; have := y.isLt; have := n.isLt
  refine ⟨?_, ?_, ?_, ?_⟩ <;> apply BitVec.eq_of_toNat_eq
  · rw [fieldOp_toNat, formatXYN_toNat]; omega
  · rw [fieldX_toNat, formatXYN_toNat]; omega
  · rw [fieldY_toNat, formatXYN_toNat]; omega
  · rw [fieldN_toNat, formatXYN_toNat]; omega

end Sys2Proof
end

