-- ==== Sys2Proof/Laws/State.lean ====
section
/-! SUPPORT. One lemma per field per named update of State, true by rfl: what an update does to a field, so that no proof unfolds
a record update; and the reads of a general register after each. -/

namespace Sys2Proof.Machine

variable (s : State)

/-- The fields of State have the widths of 00_scope.md R5: V_WIDTH, I_WIDTH, PC_WIDTH, STACK_ENTRY_WIDTH and TIMER_WIDTH. -/
theorem State.widths_eq :
    (State.v : State → Vector (BitVec Config.vWidth) Config.numV) = State.v ∧
    (State.i : State → BitVec Config.iWidth) = State.i ∧ (State.pc : State → BitVec Config.pcWidth) = State.pc ∧
    (State.stack : State → Vector (BitVec Config.stackEntryWidth) Config.stackDepth) = State.stack ∧
    (State.dt : State → BitVec Config.timerWidth) = State.dt ∧ (State.st : State → BitVec Config.timerWidth) = State.st :=
  ⟨rfl, rfl, rfl, rfl, rfl, rfl⟩

/-- The depth of the call stack is at most 16 (10_state.md R20). -/
theorem State.sp_le : s.sp.val ≤ 16 := Nat.lt_succ_iff.mp s.sp.isLt

/-! ### State.setV -/

@[simp] theorem State.setV_v (x : Reg) (b : Byte) : (s.setV x b).v = s.v.set x.toNat b x.isLt := rfl
@[simp] theorem State.setV_i (x : Reg) (b : Byte) : (s.setV x b).i = s.i := rfl
@[simp] theorem State.setV_pc (x : Reg) (b : Byte) : (s.setV x b).pc = s.pc := rfl
@[simp] theorem State.setV_sp (x : Reg) (b : Byte) : (s.setV x b).sp = s.sp := rfl
@[simp] theorem State.setV_stack (x : Reg) (b : Byte) : (s.setV x b).stack = s.stack := rfl
@[simp] theorem State.setV_dt (x : Reg) (b : Byte) : (s.setV x b).dt = s.dt := rfl
@[simp] theorem State.setV_st (x : Reg) (b : Byte) : (s.setV x b).st = s.st := rfl
@[simp] theorem State.setV_mem (x : Reg) (b : Byte) : (s.setV x b).mem = s.mem := rfl
@[simp] theorem State.setV_key (x : Reg) (b : Byte) : (s.setV x b).key = s.key := rfl
@[simp] theorem State.setV_fb (x : Reg) (b : Byte) : (s.setV x b).fb = s.fb := rfl
@[simp] theorem State.setV_draws (x : Reg) (b : Byte) : (s.setV x b).draws = s.draws := rfl
@[simp] theorem State.setV_lastResult (x : Reg) (b : Byte) : (s.setV x b).lastResult = s.lastResult := rfl

/-! ### State.setI -/

@[simp] theorem State.setI_v (a : Word) : (s.setI a).v = s.v := rfl
@[simp] theorem State.setI_i (a : Word) : (s.setI a).i = a := rfl
@[simp] theorem State.setI_pc (a : Word) : (s.setI a).pc = s.pc := rfl
@[simp] theorem State.setI_sp (a : Word) : (s.setI a).sp = s.sp := rfl
@[simp] theorem State.setI_stack (a : Word) : (s.setI a).stack = s.stack := rfl
@[simp] theorem State.setI_dt (a : Word) : (s.setI a).dt = s.dt := rfl
@[simp] theorem State.setI_st (a : Word) : (s.setI a).st = s.st := rfl
@[simp] theorem State.setI_mem (a : Word) : (s.setI a).mem = s.mem := rfl
@[simp] theorem State.setI_key (a : Word) : (s.setI a).key = s.key := rfl
@[simp] theorem State.setI_fb (a : Word) : (s.setI a).fb = s.fb := rfl
@[simp] theorem State.setI_draws (a : Word) : (s.setI a).draws = s.draws := rfl
@[simp] theorem State.setI_lastResult (a : Word) : (s.setI a).lastResult = s.lastResult := rfl

/-! ### State.setPc -/

@[simp] theorem State.setPc_v (a : Word) : (s.setPc a).v = s.v := rfl
@[simp] theorem State.setPc_i (a : Word) : (s.setPc a).i = s.i := rfl
@[simp] theorem State.setPc_pc (a : Word) : (s.setPc a).pc = a := rfl
@[simp] theorem State.setPc_sp (a : Word) : (s.setPc a).sp = s.sp := rfl
@[simp] theorem State.setPc_stack (a : Word) : (s.setPc a).stack = s.stack := rfl
@[simp] theorem State.setPc_dt (a : Word) : (s.setPc a).dt = s.dt := rfl
@[simp] theorem State.setPc_st (a : Word) : (s.setPc a).st = s.st := rfl
@[simp] theorem State.setPc_mem (a : Word) : (s.setPc a).mem = s.mem := rfl
@[simp] theorem State.setPc_key (a : Word) : (s.setPc a).key = s.key := rfl
@[simp] theorem State.setPc_fb (a : Word) : (s.setPc a).fb = s.fb := rfl
@[simp] theorem State.setPc_draws (a : Word) : (s.setPc a).draws = s.draws := rfl
@[simp] theorem State.setPc_lastResult (a : Word) : (s.setPc a).lastResult = s.lastResult := rfl

/-! ### State.setDt -/

@[simp] theorem State.setDt_v (b : Byte) : (s.setDt b).v = s.v := rfl
@[simp] theorem State.setDt_i (b : Byte) : (s.setDt b).i = s.i := rfl
@[simp] theorem State.setDt_pc (b : Byte) : (s.setDt b).pc = s.pc := rfl
@[simp] theorem State.setDt_sp (b : Byte) : (s.setDt b).sp = s.sp := rfl
@[simp] theorem State.setDt_stack (b : Byte) : (s.setDt b).stack = s.stack := rfl
@[simp] theorem State.setDt_dt (b : Byte) : (s.setDt b).dt = b := rfl
@[simp] theorem State.setDt_st (b : Byte) : (s.setDt b).st = s.st := rfl
@[simp] theorem State.setDt_mem (b : Byte) : (s.setDt b).mem = s.mem := rfl
@[simp] theorem State.setDt_key (b : Byte) : (s.setDt b).key = s.key := rfl
@[simp] theorem State.setDt_fb (b : Byte) : (s.setDt b).fb = s.fb := rfl
@[simp] theorem State.setDt_draws (b : Byte) : (s.setDt b).draws = s.draws := rfl
@[simp] theorem State.setDt_lastResult (b : Byte) : (s.setDt b).lastResult = s.lastResult := rfl

/-! ### State.setSt -/

@[simp] theorem State.setSt_v (b : Byte) : (s.setSt b).v = s.v := rfl
@[simp] theorem State.setSt_i (b : Byte) : (s.setSt b).i = s.i := rfl
@[simp] theorem State.setSt_pc (b : Byte) : (s.setSt b).pc = s.pc := rfl
@[simp] theorem State.setSt_sp (b : Byte) : (s.setSt b).sp = s.sp := rfl
@[simp] theorem State.setSt_stack (b : Byte) : (s.setSt b).stack = s.stack := rfl
@[simp] theorem State.setSt_dt (b : Byte) : (s.setSt b).dt = s.dt := rfl
@[simp] theorem State.setSt_st (b : Byte) : (s.setSt b).st = b := rfl
@[simp] theorem State.setSt_mem (b : Byte) : (s.setSt b).mem = s.mem := rfl
@[simp] theorem State.setSt_key (b : Byte) : (s.setSt b).key = s.key := rfl
@[simp] theorem State.setSt_fb (b : Byte) : (s.setSt b).fb = s.fb := rfl
@[simp] theorem State.setSt_draws (b : Byte) : (s.setSt b).draws = s.draws := rfl
@[simp] theorem State.setSt_lastResult (b : Byte) : (s.setSt b).lastResult = s.lastResult := rfl

/-! ### State.setFb -/

@[simp] theorem State.setFb_v (f : Framebuffer) : (s.setFb f).v = s.v := rfl
@[simp] theorem State.setFb_i (f : Framebuffer) : (s.setFb f).i = s.i := rfl
@[simp] theorem State.setFb_pc (f : Framebuffer) : (s.setFb f).pc = s.pc := rfl
@[simp] theorem State.setFb_sp (f : Framebuffer) : (s.setFb f).sp = s.sp := rfl
@[simp] theorem State.setFb_stack (f : Framebuffer) : (s.setFb f).stack = s.stack := rfl
@[simp] theorem State.setFb_dt (f : Framebuffer) : (s.setFb f).dt = s.dt := rfl
@[simp] theorem State.setFb_st (f : Framebuffer) : (s.setFb f).st = s.st := rfl
@[simp] theorem State.setFb_mem (f : Framebuffer) : (s.setFb f).mem = s.mem := rfl
@[simp] theorem State.setFb_key (f : Framebuffer) : (s.setFb f).key = s.key := rfl
@[simp] theorem State.setFb_fb (f : Framebuffer) : (s.setFb f).fb = f := rfl
@[simp] theorem State.setFb_draws (f : Framebuffer) : (s.setFb f).draws = s.draws := rfl
@[simp] theorem State.setFb_lastResult (f : Framebuffer) : (s.setFb f).lastResult = s.lastResult := rfl

/-! ### State.setResult -/

@[simp] theorem State.setResult_v (r : StepResult) : (s.setResult r).v = s.v := rfl
@[simp] theorem State.setResult_i (r : StepResult) : (s.setResult r).i = s.i := rfl
@[simp] theorem State.setResult_pc (r : StepResult) : (s.setResult r).pc = s.pc := rfl
@[simp] theorem State.setResult_sp (r : StepResult) : (s.setResult r).sp = s.sp := rfl
@[simp] theorem State.setResult_stack (r : StepResult) : (s.setResult r).stack = s.stack := rfl
@[simp] theorem State.setResult_dt (r : StepResult) : (s.setResult r).dt = s.dt := rfl
@[simp] theorem State.setResult_st (r : StepResult) : (s.setResult r).st = s.st := rfl
@[simp] theorem State.setResult_mem (r : StepResult) : (s.setResult r).mem = s.mem := rfl
@[simp] theorem State.setResult_key (r : StepResult) : (s.setResult r).key = s.key := rfl
@[simp] theorem State.setResult_fb (r : StepResult) : (s.setResult r).fb = s.fb := rfl
@[simp] theorem State.setResult_draws (r : StepResult) : (s.setResult r).draws = s.draws := rfl
@[simp] theorem State.setResult_lastResult (r : StepResult) : (s.setResult r).lastResult = r := rfl

/-! ### State.advance -/

@[simp] theorem State.advance_v : s.advance.v = s.v := rfl
@[simp] theorem State.advance_i : s.advance.i = s.i := rfl
@[simp] theorem State.advance_pc : s.advance.pc = s.pc + 2#16 := rfl
@[simp] theorem State.advance_sp : s.advance.sp = s.sp := rfl
@[simp] theorem State.advance_stack : s.advance.stack = s.stack := rfl
@[simp] theorem State.advance_dt : s.advance.dt = s.dt := rfl
@[simp] theorem State.advance_st : s.advance.st = s.st := rfl
@[simp] theorem State.advance_mem : s.advance.mem = s.mem := rfl
@[simp] theorem State.advance_key : s.advance.key = s.key := rfl
@[simp] theorem State.advance_fb : s.advance.fb = s.fb := rfl
@[simp] theorem State.advance_draws : s.advance.draws = s.draws := rfl
@[simp] theorem State.advance_lastResult : s.advance.lastResult = s.lastResult := rfl

/-! ### Reading a general register -/

@[simp] theorem State.getV_setI (a : Word) (j : Reg) : (s.setI a).getV j = s.getV j := rfl
@[simp] theorem State.getV_setPc (a : Word) (j : Reg) : (s.setPc a).getV j = s.getV j := rfl
@[simp] theorem State.getV_setDt (b : Byte) (j : Reg) : (s.setDt b).getV j = s.getV j := rfl
@[simp] theorem State.getV_setSt (b : Byte) (j : Reg) : (s.setSt b).getV j = s.getV j := rfl
@[simp] theorem State.getV_setFb (f : Framebuffer) (j : Reg) : (s.setFb f).getV j = s.getV j := rfl
@[simp] theorem State.getV_setResult (r : StepResult) (j : Reg) : (s.setResult r).getV j = s.getV j := rfl
@[simp] theorem State.getV_advance (j : Reg) : s.advance.getV j = s.getV j := rfl

/-- A register read after a register write (10_state.md R12). -/
theorem State.getV_setV (x j : Reg) (b : Byte) : (s.setV x b).getV j = if j = x then b else s.getV j := by
  unfold State.getV State.setV
  by_cases h : j = x
  · subst h; simp
  · have : x.toNat ≠ j.toNat := fun e => h (BitVec.eq_of_toNat_eq e.symm)
    simp [this, h]

@[simp] theorem State.getV_setV_self (x : Reg) (b : Byte) : (s.setV x b).getV x = b := by
  simp [State.getV_setV]

theorem State.getV_setV_ne (x j : Reg) (b : Byte) (h : j ≠ x) : (s.setV x b).getV j = s.getV j := by
  simp [State.getV_setV, h]

/-- A record update of a field other than v leaves every register as it was. -/
theorem State.getV_congr (t : State) (h : t.v = s.v) (j : Reg) : t.getV j = s.getV j := by
  simp [State.getV, h]

end Sys2Proof.Machine
end

