-- ==== Sys2Proof/Laws/Memory.lean ====
section
/-! SUPPORT. The laws of memory: a read after a write, the canonical form under every memory operation, and what the block
operations and the range check can do. -/

namespace Sys2Proof.Machine

/-- An address below every listed one is unlisted. -/
theorem Memory.get_of_below (m : Memory) (a : Nat) (h : ∀ c ∈ m, a < c.1) : Memory.get m a = Memory.initialByte a := by
  induction m with
  | nil => rfl
  | cons c rest ih =>
    have hc := h c (by simp)
    simp only [Memory.get]
    rw [if_neg (by omega)]
    exact ih fun d hd => h d (by simp [hd])

/-- A write leaves every other address alone. -/
theorem Memory.get_put_ne (m : Memory) (a c : Nat) (b : Byte) (h : c ≠ a) :
    Memory.get (Memory.put m a b) c = Memory.get m c := by
  induction m with
  | nil =>
    simp only [Memory.put]
    split
    · rfl
    · simp [Memory.get, h.symm]
  | cons d rest ih =>
    simp only [Memory.put]
    have h' : a ≠ c := h.symm
    split_ifs <;> simp_all [Memory.get]

/-- A read after a write to the same address, in canonical memory. -/
theorem Memory.get_put_self (m : Memory) (a : Nat) (b : Byte) (hm : Memory.wf m) :
    Memory.get (Memory.put m a b) a = b := by
  induction m with
  | nil =>
    simp only [Memory.put]
    split
    · simp [Memory.get, *]
    · simp [Memory.get]
  | cons d rest ih =>
    obtain ⟨hs, hv⟩ := hm
    rw [List.pairwise_cons] at hs
    have hrest : Memory.wf rest := ⟨hs.2, fun c hc => hv c (by simp [hc])⟩
    simp only [Memory.put]
    split_ifs with h1 h2 h3 h4
    · subst h2
      exact Memory.get_of_below _ _ fun c hc => by
        rcases List.mem_cons.mp hc with rfl | hc
        · exact h1
        · have := hs.1 c hc; omega
    · simp [Memory.get]
    · subst h4
      exact Memory.get_of_below _ _ fun c hc => by have := hs.1 c hc; omega
    · simp [Memory.get]
    · simp only [Memory.get]
      rw [if_neg (by omega)]
      exact ih hrest

/-- What a write lists: the address written, or an entry that was there. -/
theorem Memory.mem_put (m : Memory) (a : Nat) (b : Byte) (c : Host.Cell) (h : c ∈ Memory.put m a b) :
    c = (a, b) ∧ b ≠ Memory.initialByte a ∨ c ∈ m := by
  induction m with
  | nil =>
    simp only [Memory.put] at h
    split at h <;> simp_all
  | cons d rest ih =>
    simp only [Memory.put] at h
    split_ifs at h with h1 h2 h3 h4
    · exact .inr h
    · rcases List.mem_cons.mp h with rfl | h
      · exact .inl ⟨rfl, h2⟩
      · exact .inr h
    · exact .inr (by simp [h])
    · rcases List.mem_cons.mp h with rfl | h
      · exact .inl ⟨rfl, h4⟩
      · exact .inr (by simp [h])
    · rcases List.mem_cons.mp h with rfl | h
      · exact .inr (by simp)
      · rcases ih h with h | h
        · exact .inl h
        · exact .inr (by simp [h])

/-- A write inside the address space keeps the canonical form. -/
theorem Memory.put_wf (m : Memory) (a : Nat) (b : Byte) (hm : Memory.wf m) (ha : a ≤ Config.addrMax) :
    Memory.wf (Memory.put m a b) := by
  refine ⟨?_, fun c hc => ?_⟩
  · obtain ⟨hs, -⟩ := hm
    induction m with
    | nil =>
      simp only [Memory.put]
      split <;> simp
    | cons d rest ih =>
      rw [List.pairwise_cons] at hs
      simp only [Memory.put]
      split_ifs with h1 h2 h3 h4
      · exact List.pairwise_cons.mpr hs
      · refine List.pairwise_cons.mpr ⟨fun c hc => ?_, List.pairwise_cons.mpr hs⟩
        rcases List.mem_cons.mp hc with rfl | hc
        · exact h1
        · have := hs.1 c hc; simp only; omega
      · exact hs.2
      · refine List.pairwise_cons.mpr ⟨fun c hc => ?_, hs.2⟩
        have := hs.1 c hc; simp only; omega
      · refine List.pairwise_cons.mpr ⟨fun c hc => ?_, ih hs.2⟩
        rcases Memory.mem_put _ _ _ _ hc with ⟨rfl, -⟩ | hc
        · simp only; omega
        · exact hs.1 c hc
  · rcases Memory.mem_put _ _ _ _ hc with ⟨rfl, hb⟩ | hc
    · exact ⟨ha, hb⟩
    · exact hm.2 c hc

/-- A block write leaves every address outside the block alone. -/
theorem Memory.get_putBlock_outside (m : Memory) (a c : Nat) (bs : List Byte) (h : c < a ∨ a + bs.length ≤ c) :
    Memory.get (Memory.putBlock m a bs) c = Memory.get m c := by
  induction bs generalizing m a with
  | nil => rfl
  | cons b bs ih =>
    simp only [List.length_cons] at h
    rw [Memory.putBlock, ih _ _ (by omega), Memory.get_put_ne _ _ _ _ (by omega)]

/-- A block write inside the address space keeps the canonical form. -/
theorem Memory.putBlock_wf (m : Memory) (a : Nat) (bs : List Byte) (hm : Memory.wf m)
    (h : a + bs.length ≤ Config.memSize) : Memory.wf (Memory.putBlock m a bs) := by
  induction bs generalizing m a with
  | nil => exact hm
  | cons b bs ih =>
    simp only [List.length_cons, Config.memSize] at h
    exact ih _ _ (Memory.put_wf _ _ _ hm (by simp only [Config.addrMax]; omega)) (by simp only [Config.memSize]; omega)

/-- A byte of the block reads as written. -/
theorem Memory.get_putBlock_inside (m : Memory) (a k : Nat) (bs : List Byte) (hm : Memory.wf m)
    (h : a + bs.length ≤ Config.memSize) (hk : k < bs.length) :
    Memory.get (Memory.putBlock m a bs) (a + k) = bs[k] := by
  induction bs generalizing m a k with
  | nil => simp at hk
  | cons b bs ih =>
    simp only [List.length_cons, Config.memSize] at h hk
    have hw := Memory.put_wf m a b hm (by simp only [Config.addrMax]; omega)
    cases k with
    | zero =>
      rw [Memory.putBlock, Memory.get_putBlock_outside _ _ _ _ (by omega)]
      exact Memory.get_put_self _ _ _ hm
    | succ k =>
      have := ih (Memory.put m a b) (a + 1) k hw (by simp only [Config.memSize]; omega) (by omega)
      rw [Memory.putBlock, show a + (k + 1) = a + 1 + k by omega, this]
      rfl

/-- What CheckRange (20_memory.md R41) can do: it passes exactly when nothing is accessed or the range ends inside memory. -/
theorem checkRange_eq (base : Word) (count : Nat) :
    checkRange base count =
      if count = 0 ∨ base.toNat + count ≤ Config.memSize then .ok () else .error .outOfBoundsAddress := by
  unfold checkRange Config.memSize Config.addrMax
  by_cases h : count = 0 ∨ base.toNat + count ≤ 4096
  · rw [if_pos h, if_neg (by omega)]
  · rw [if_neg h, if_pos (by omega)]

/-- A block read inside the address space answers the bytes in order. -/
theorem State.readBlock_ok (s : State) (a n : Nat) (h : a + n ≤ Config.memSize) :
    s.readBlock a n = .ok ((List.range n).map fun k => Memory.get s.mem (a + k)) := by
  induction n generalizing a with
  | zero => rfl
  | succ n ih =>
    simp only [Config.memSize] at h
    have h1 : ¬a > Config.addrMax := by simp only [Config.addrMax]; omega
    rw [State.readBlock, State.memRead, if_neg h1]
    simp only
    rw [ih (a + 1) (by simp only [Config.memSize]; omega), List.range_succ_eq_map]
    simp only [List.map_cons, List.map_map, Nat.add_zero, Except.ok.injEq, List.cons.injEq, true_and]
    refine List.map_congr_left fun k _ => ?_
    simp only [Function.comp, Nat.succ_eq_add_one]
    congr 1
    omega

/-- A block write inside the address space changes memory only. -/
theorem State.writeBlock_ok (s : State) (a : Nat) (bs : List Byte) (h : a + bs.length ≤ Config.memSize) :
    s.writeBlock a bs = .ok { s with mem := Memory.putBlock s.mem a bs } := by
  induction bs generalizing s a with
  | nil => rfl
  | cons b bs ih =>
    simp only [List.length_cons, Config.memSize] at h
    have h1 : ¬a > Config.addrMax := by simp only [Config.addrMax]; omega
    rw [State.writeBlock, State.memWrite, if_neg h1]
    simp only
    rw [ih _ (a + 1) (by simp only [Config.memSize]; omega)]
    rfl

/-- The fetch (20_memory.md R39) below 0xFFF answers the word at PC. -/
theorem State.fetch_ok (s : State) (h : s.pc.toNat ≤ 0xFFE) :
    s.fetch = .ok (wordOfBytes (Memory.get s.mem s.pc.toNat) (Memory.get s.mem (s.pc.toNat + 1))) := by
  unfold State.fetch Config.addrMax
  rw [if_neg (by omega)]

/-- The fetch above 0xFFE raises. -/
theorem State.fetch_error (s : State) (h : 0xFFE < s.pc.toNat) : s.fetch = .error .outOfBoundsAddress := by
  unfold State.fetch Config.addrMax
  rw [if_pos (by omega)]

/-- The number a word of two bytes stands for (20_memory.md R43: the first byte is the more significant). -/
theorem wordOfBytes_toNat (hi lo : Byte) : (wordOfBytes hi lo).toNat = 256 * hi.toNat + lo.toNat := by
  unfold wordOfBytes
  rw [BitVec.toNat_append, Nat.shiftLeft_eq, ← Nat.shiftLeft_eq, ← Nat.shiftLeft_add_eq_or_of_lt lo.isLt, Nat.shiftLeft_eq]
  omega

end Sys2Proof.Machine
end

