-- ==== Sys2Proof/Laws/Ops.lean ====
section
/-! SUPPORT. One lemma per shared operation, saying once everything it can do: the call stack, the skips, the stores and loads at I,
the block of registers, the sprite loop, the step, and the ROM load. -/

namespace Sys2Proof.Machine

/-! ### The call stack (10_state.md R21, R22) -/

/-- Push at depth 16 raises. -/
theorem State.push_full (s : State) (a : Word) (h : s.sp.val = 16) : s.push a = .error .stackOverflow := by
  unfold State.push
  rw [dif_neg (by simp only [Config.stackDepth]; omega)]

/-- Push below depth 16 stores the address at SP and raises SP by one. -/
theorem State.push_ok (s : State) (a : Word) (h : s.sp.val < 16) :
    s.push a = .ok { s with stack := s.stack.set s.sp.val a h, sp := ⟨s.sp.val + 1, Nat.succ_lt_succ h⟩ } := by
  unfold State.push
  rw [dif_pos h]

/-- Pop at depth 0 raises. -/
theorem State.pop_empty (s : State) (h : s.sp.val = 0) : s.pop = .error .stackUnderflow := by
  unfold State.pop
  rw [dif_neg (by omega)]

/-- Pop above depth 0 answers the top entry, lowers SP by one and leaves the array. -/
theorem State.pop_ok (s : State) (h : 0 < s.sp.val) :
    s.pop = .ok (s.stack[s.sp.val - 1]'(by omega), { s with sp := ⟨s.sp.val - 1, by omega⟩ }) := by
  unfold State.pop
  rw [dif_pos h]

/-! ### Skips (41_control_flow.md R77) -/

/-- A skip completes, with PC two further on exactly when its condition holds. -/
theorem State.skipIf_eq (s : State) (cond : Bool) :
    s.skipIf cond = .next ((s.setPc (if cond then s.pc + 2#16 else s.pc)).setResult .ok) := by
  cases cond <;> rfl

/-! ### Stores and loads at I (20_memory.md R41) -/

/-- A store at I whose range is inside memory changes memory only, and completes. -/
theorem State.storeAtI_ok (s : State) (bs : List Byte) (h : s.i.toNat + bs.length ≤ Config.memSize) :
    s.storeAtI bs = .next { s with mem := Memory.putBlock s.mem s.i.toNat bs, lastResult := .ok } := by
  unfold State.storeAtI
  rw [checkRange_eq, if_pos (.inr h)]
  simp only [s.writeBlock_ok _ _ h]
  rfl

/-- A store at I whose range ends above memory raises, from the state it started in. -/
theorem State.storeAtI_error (s : State) (bs : List Byte) (h0 : bs ≠ []) (h : Config.memSize < s.i.toNat + bs.length) :
    s.storeAtI bs = s.raise .outOfBoundsAddress := by
  have hl : bs.length ≠ 0 := by simpa using h0
  unfold State.storeAtI
  rw [checkRange_eq, if_neg (by omega)]

/-- Fx65 whose range is inside memory loads the block and completes. -/
theorem execLoadRegs_ok (x : Reg) (s : State) (h : s.i.toNat + (x.toNat + 1) ≤ Config.memSize) :
    execLoadRegs x s =
      (s.setRegs 0 ((List.range (x.toNat + 1)).map fun k => Memory.get s.mem (s.i.toNat + k))).done := by
  unfold execLoadRegs
  rw [checkRange_eq, if_pos (.inr h)]
  simp only [s.readBlock_ok _ _ h]

/-- Fx65 whose range ends above memory raises, from the state it started in. -/
theorem execLoadRegs_error (x : Reg) (s : State) (h : Config.memSize < s.i.toNat + (x.toNat + 1)) :
    execLoadRegs x s = s.raise .outOfBoundsAddress := by
  unfold execLoadRegs
  rw [checkRange_eq, if_neg (by omega)]

/-! ### Blocks of registers (43_index_memory.md R100, R101) -/

/-- Loading a block of registers changes general registers only. -/
theorem State.setRegs_frame (s : State) (k : Nat) (bs : List Byte) :
    s.setRegs k bs = { s with v := (s.setRegs k bs).v } := by
  induction bs generalizing s k with
  | nil => rfl
  | cons b bs ih =>
    rw [State.setRegs, ih]
    rfl

/-- What a block load leaves in the registers depends on the registers alone. -/
theorem State.setRegs_v_congr (s t : State) (k : Nat) (bs : List Byte) (h : s.v = t.v) :
    (s.setRegs k bs).v = (t.setRegs k bs).v := by
  induction bs generalizing s t k with
  | nil => exact h
  | cons b bs ih => exact ih _ _ _ (by simp [h])

/-- A register of the block holds its byte, every other register what it held. -/
theorem State.getV_setRegs (s : State) (k : Nat) (bs : List Byte) (j : Reg) (h : k + bs.length ≤ 16) :
    (s.setRegs k bs).getV j =
      if hj : k ≤ j.toNat ∧ j.toNat < k + bs.length then bs[j.toNat - k]'(by omega) else s.getV j := by
  induction bs generalizing s k with
  | nil => rw [dif_neg (by simp only [List.length_nil]; omega)]; rfl
  | cons b bs ih =>
    simp only [List.length_cons] at h ⊢
    rw [State.setRegs, ih _ _ (by omega), State.getV_setV]
    by_cases hk : j.toNat = k
    · have hj : j = BitVec.ofNat 4 k := by
        apply BitVec.eq_of_toNat_eq; simp only [BitVec.toNat_ofNat]; omega
      rw [dif_neg (by omega), if_pos hj, dif_pos (by omega)]
      simp [hk]
    · have hj : j ≠ BitVec.ofNat 4 k := by
        intro e; apply hk; rw [e]; simp only [BitVec.toNat_ofNat]; omega
      by_cases hr : k + 1 ≤ j.toNat ∧ j.toNat < k + 1 + bs.length
      · rw [dif_pos hr, dif_pos (by omega)]
        have : j.toNat - k = (j.toNat - (k + 1)) + 1 := by omega
        simp only [this, List.getElem_cons_succ]
      · rw [dif_neg hr, if_neg hj, dif_neg (by omega)]

@[simp] theorem State.length_firstRegs (s : State) (count : Nat) (h : count ≤ 16) : (s.firstRegs count).length = count := by
  simp [State.firstRegs, h]

/-- The k-th of the first registers is V[k]. -/
theorem State.getElem_firstRegs (s : State) (count : Nat) (j : Reg) (h : j.toNat < (s.firstRegs count).length) :
    (s.firstRegs count)[j.toNat] = s.getV j := by
  simp [State.firstRegs, State.getV]

/-! ### The framebuffer and the sprite loop (44_display.md R104, R105) -/

/-- A pixel read after a pixel write inside the screen. -/
theorem Framebuffer.get_put (f : Framebuffer) (c r c' r' : Nat) (b : Bool) (h : c < 64 ∧ r < 32) :
    Framebuffer.get (Framebuffer.put f c r b) c' r' = if c' = c ∧ r' = r then b else Framebuffer.get f c' r' := by
  unfold Framebuffer.get Framebuffer.put
  rw [dif_pos h]
  by_cases h' : c' < 64 ∧ r' < 32
  · rw [dif_pos h', dif_pos h']
    by_cases hc : c = c'
    · subst hc
      by_cases hr : r = r'
      · subst hr; simp
      · have : r' ≠ r := fun e => hr e.symm
        simp [hr, this]
    · have : c' ≠ c := fun e => hc e.symm
      simp [hc, this]
  · rw [dif_neg h', dif_neg h', if_neg]
    rintro ⟨rfl, rfl⟩
    exact h' h

/-- Framebuffers that agree on every pixel of the screen are equal. -/
theorem Framebuffer.ext_get (f g : Framebuffer) (h : ∀ c r, c < 64 → r < 32 → Framebuffer.get f c r = Framebuffer.get g c r) :
    f = g := by
  apply Vector.ext
  intro c hc
  apply Vector.ext
  intro r hr
  have := h c r hc hr
  unfold Framebuffer.get at this
  rw [dif_pos ⟨hc, hr⟩, dif_pos ⟨hc, hr⟩] at this
  exact this

@[simp] theorem Framebuffer.get_clear (c r : Nat) : Framebuffer.get Framebuffer.clear c r = false := by
  unfold Framebuffer.get Framebuffer.clear
  split <;> simp

/-- Outside the screen no pixel is set. -/
theorem Framebuffer.get_outside (f : Framebuffer) (c r : Nat) (h : ¬(c < 64 ∧ r < 32)) : Framebuffer.get f c r = false := by
  unfold Framebuffer.get
  rw [dif_neg h]

/-- What drawing can do, with `bit c r` saying which pixels of the screen are under a drawn bit: it inverts those pixels, and
records a hit exactly when one of them was set. -/
def DrawSpec (bit : Nat → Nat → Bool) (f g : Framebuffer) (hit hit' : Bool) : Prop :=
  (∀ c r, c < 64 → r < 32 → Framebuffer.get g c r = Bool.xor (Framebuffer.get f c r) (bit c r)) ∧
  (hit' = true ↔ hit = true ∨ ∃ c r, c < 64 ∧ r < 32 ∧ bit c r = true ∧ Framebuffer.get f c r = true)

/-- Drawing one set of pixels and then a disjoint one draws their union. -/
theorem DrawSpec.trans {b1 b2 : Nat → Nat → Bool} {f g k : Framebuffer} {h1 h2 h3 : Bool}
    (hd : ∀ c r, ¬(b1 c r = true ∧ b2 c r = true)) (A : DrawSpec b1 f g h1 h2) (B : DrawSpec b2 g k h2 h3) :
    DrawSpec (fun c r => b1 c r || b2 c r) f k h1 h3 := by
  refine ⟨fun c r hc hr => ?_, ?_⟩
  · have := hd c r
    rw [B.1 c r hc hr, A.1 c r hc hr]
    show _ = Bool.xor _ (b1 c r || b2 c r)
    revert this
    cases b1 c r <;> cases b2 c r <;> cases Framebuffer.get f c r <;> simp
  · rw [B.2, A.2]
    constructor
    · rintro ((h | ⟨c, r, hc, hr, hb, hf⟩) | ⟨c, r, hc, hr, hb, hg⟩)
      · exact .inl h
      · exact .inr ⟨c, r, hc, hr, by simp [hb], hf⟩
      · refine .inr ⟨c, r, hc, hr, by simp [hb], ?_⟩
        rw [A.1 c r hc hr] at hg
        have := hd c r
        simp_all
    · rintro (h | ⟨c, r, hc, hr, hb, hf⟩)
      · exact .inl (.inl h)
      · by_cases h1 : b1 c r = true
        · exact .inl (.inr ⟨c, r, hc, hr, h1, hf⟩)
        · refine .inr ⟨c, r, hc, hr, by simpa [h1] using hb, ?_⟩
          rw [A.1 c r hc hr]
          simp_all

/-- One pixel of the loop (R105). -/
theorem drawPixel_spec (x0 y : Nat) (b : Byte) (acc : Framebuffer × Bool) (c : Nat) :
    DrawSpec (fun c' r' => decide (c' = x0 + c ∧ r' = y) && spriteBit b c) acc.1 (drawPixel x0 y b acc c).1 acc.2
      (drawPixel x0 y b acc c).2 := by
  unfold drawPixel
  split_ifs with h
  · obtain ⟨hb, hc, hr⟩ := h
    refine ⟨fun c' r' hc' hr' => ?_, ?_⟩
    · rw [Framebuffer.get_put _ _ _ _ _ _ ⟨hc, hr⟩]
      by_cases e : c' = x0 + c ∧ r' = y
      · obtain ⟨rfl, rfl⟩ := e; simp [hb]
      · rw [if_neg e]; simp [e]
    · simp only [Bool.or_eq_true, Bool.and_eq_true, decide_eq_true_eq, hb]
      constructor
      · rintro (h | h)
        · exact .inl h
        · exact .inr ⟨x0 + c, y, hc, hr, by simp, h⟩
      · rintro (h | ⟨c', r', -, -, ⟨⟨rfl, rfl⟩, -⟩, h⟩)
        · exact .inl h
        · exact .inr h
  · refine ⟨fun c' r' hc' hr' => ?_, ?_⟩
    · by_cases hb : spriteBit b c = true
      · have : ¬(c' = x0 + c ∧ r' = y) := by rintro ⟨rfl, rfl⟩; exact h ⟨hb, hc', hr'⟩
        simp [this]
      · simp [hb]
    · constructor
      · exact .inl
      · rintro (h' | ⟨c', r', hc', hr', hb, -⟩)
        · exact h'
        · simp only [Bool.and_eq_true, decide_eq_true_eq] at hb
          obtain ⟨⟨rfl, rfl⟩, hb⟩ := hb
          exact absurd ⟨hb, hc', hr'⟩ h

/-- The bits of one sprite row that the loop draws up to column offset n. -/
def rowBits (x0 y : Nat) (b : Byte) (n : Nat) (c r : Nat) : Bool :=
  decide (x0 ≤ c ∧ c < x0 + n ∧ r = y) && spriteBit b (c - x0)

theorem drawRow_upTo_spec (x0 y : Nat) (b : Byte) (acc : Framebuffer × Bool) (n : Nat) :
    DrawSpec (rowBits x0 y b n) acc.1 ((List.range n).foldl (drawPixel x0 y b) acc).1 acc.2
      ((List.range n).foldl (drawPixel x0 y b) acc).2 := by
  induction n with
  | zero =>
    refine ⟨fun c r _ _ => ?_, ?_⟩
    · have : ¬(x0 ≤ c ∧ c < x0 + 0 ∧ r = y) := by omega
      simp only [rowBits, decide_eq_false this, Bool.false_and, Bool.xor_false, List.range_zero, List.foldl_nil]
    · constructor
      · exact .inl
      · rintro (h | ⟨c, r, -, -, hb, -⟩)
        · exact h
        · simp [rowBits] at hb; omega
  | succ n ih =>
    rw [List.range_succ, List.foldl_append, List.foldl_cons, List.foldl_nil]
    have hp := drawPixel_spec x0 y b ((List.range n).foldl (drawPixel x0 y b) acc) n
    have := ih.trans (fun c r => by simp [rowBits]; omega) hp
    convert this using 1
    funext c r
    by_cases hc : c = x0 + n
    · subst hc
      have h1 : ¬(x0 ≤ x0 + n ∧ x0 + n < x0 + n ∧ r = y) := by omega
      simp [rowBits]
    · have h1 : (x0 ≤ c ∧ c < x0 + (n + 1) ∧ r = y) ↔ (x0 ≤ c ∧ c < x0 + n ∧ r = y) := by omega
      simp [rowBits, h1, hc]

/-- One row of the sprite (R105). -/
theorem drawRow_spec (x0 y : Nat) (b : Byte) (acc : Framebuffer × Bool) :
    DrawSpec (rowBits x0 y b 8) acc.1 (drawRow x0 y b acc).1 acc.2 (drawRow x0 y b acc).2 :=
  drawRow_upTo_spec x0 y b acc 8

/-- The bits of the sprite: row r - y of the bytes, at column offset c - x0. -/
def spriteBits (x0 y : Nat) (bs : List Byte) (c r : Nat) : Bool :=
  decide (x0 ≤ c ∧ c < x0 + 8 ∧ y ≤ r ∧ r < y + bs.length) && spriteBit (bs.getD (r - y) 0#8) (c - x0)

/-- The whole sprite loop (R105): it inverts the screen's pixels under set bits, and hits exactly when one of them was set. -/
theorem drawRows_spec (x0 y : Nat) (bs : List Byte) (acc : Framebuffer × Bool) :
    DrawSpec (spriteBits x0 y bs) acc.1 (drawRows x0 y bs acc).1 acc.2 (drawRows x0 y bs acc).2 := by
  induction bs generalizing y acc with
  | nil =>
    refine ⟨fun c r _ _ => ?_, ?_⟩
    · have : ¬(x0 ≤ c ∧ c < x0 + 8 ∧ y ≤ r ∧ r < y + ([] : List Byte).length) := by
        simp only [List.length_nil]; omega
      simp only [spriteBits, decide_eq_false this, Bool.false_and, Bool.xor_false, drawRows]
    · constructor
      · exact .inl
      · rintro (h | ⟨c, r, -, -, hb, -⟩)
        · exact h
        · simp [spriteBits] at hb; omega
  | cons b bs ih =>
    have h := (drawRow_spec x0 y b acc).trans
      (fun c r => by simp only [rowBits, spriteBits, Bool.and_eq_true, decide_eq_true_eq]; omega)
      (ih (y + 1) (drawRow x0 y b acc))
    rw [drawRows]
    convert h using 1
    funext c r
    simp only [rowBits, spriteBits, List.length_cons]
    by_cases hr : r = y
    · subst hr
      have h1 : ¬(x0 ≤ c ∧ c < x0 + 8 ∧ r + 1 ≤ r ∧ r < r + 1 + bs.length) := by omega
      have h2 : (x0 ≤ c ∧ c < x0 + 8 ∧ r ≤ r ∧ r < r + (bs.length + 1)) ↔ (x0 ≤ c ∧ c < x0 + 8 ∧ r = r) := by omega
      simp only [h1, h2, decide_false, Bool.false_and, Bool.or_false, Nat.sub_self, List.getD_cons_zero]
    · have h1 : ¬(x0 ≤ c ∧ c < x0 + 8 ∧ r = y) := by omega
      by_cases hy : y + 1 ≤ r
      · have h3 : r - y = (r - (y + 1)) + 1 := by omega
        have h2 : (x0 ≤ c ∧ c < x0 + 8 ∧ y ≤ r ∧ r < y + (bs.length + 1)) ↔
            (x0 ≤ c ∧ c < x0 + 8 ∧ y + 1 ≤ r ∧ r < y + 1 + bs.length) := by omega
        simp only [h1, h2, decide_false, Bool.false_and, Bool.false_or, h3, List.getD_cons_succ]
      · have h2 : ¬(x0 ≤ c ∧ c < x0 + 8 ∧ y ≤ r ∧ r < y + (bs.length + 1)) := by omega
        have h3 : ¬(x0 ≤ c ∧ c < x0 + 8 ∧ y + 1 ≤ r ∧ r < y + 1 + bs.length) := by omega
        simp only [decide_eq_false h1, decide_eq_false h2, decide_eq_false h3, Bool.false_and, Bool.or_false]

/-- DRW whose rows are inside memory, or that has none: the loop over the bytes at I, and the flag last. -/
theorem execDrw_ok (x y : Reg) (n : Nibble) (s : State) (h : n.toNat = 0 ∨ s.i.toNat + n.toNat ≤ Config.memSize) :
    execDrw x y n s =
      let p := drawRows (originColumn (s.getV x)) (originRow (s.getV y))
        ((List.range n.toNat).map fun k => Memory.get s.mem (s.i.toNat + k)) (s.fb, false)
      ((s.setFb p.1).setV regF (bool01 p.2)).done := by
  unfold execDrw
  rw [checkRange_eq, if_pos h]
  rcases h with h | h
  · rw [h]; rfl
  · simp only [s.readBlock_ok _ _ h]

/-- DRW whose rows end above memory raises, from the state it started in. -/
theorem execDrw_error (x y : Reg) (n : Nibble) (s : State) (h0 : n.toNat ≠ 0) (h : Config.memSize < s.i.toNat + n.toNat) :
    execDrw x y n s = s.raise .outOfBoundsAddress := by
  unfold execDrw
  rw [checkRange_eq, if_neg (by omega)]

/-- The address of a glyph as a number: no wrap at 16 bits (43_index_memory.md R98: at most 0x54B). -/
theorem glyphAddress_toNat (d : Byte) : (glyphAddress d).toNat = 0x050 + 5 * d.toNat := by
  have := d.isLt
  unfold glyphAddress Config.fontBase Config.glyphBytes
  rw [BitVec.toNat_ofNat]
  omega

/-! ### The instructions that can raise or branch, each as one equation -/

/-- CALL (41_control_flow.md R75). -/
theorem execCall_eq (nnn : Addr12) (s : State) :
    execCall nnn s =
      if h : s.sp.val < 16 then
        .next { s with stack := s.stack.set s.sp.val s.pc h, sp := ⟨s.sp.val + 1, Nat.succ_lt_succ h⟩, pc := zext16 nnn, lastResult := .ok }
      else s.raise .stackOverflow := by
  unfold execCall
  split_ifs with h
  · simp only [s.push_ok _ h]; rfl
  · simp only [s.push_full _ (by have := s.sp_le; omega)]

/-- RET (R76). -/
theorem execRet_eq (s : State) :
    execRet s =
      if h : 0 < s.sp.val then
        .next { s with sp := ⟨s.sp.val - 1, by omega⟩, pc := s.stack[s.sp.val - 1]'(by omega), lastResult := .ok }
      else s.raise .stackUnderflow := by
  unfold execRet
  split_ifs with h
  · simp only [s.pop_ok h]; rfl
  · simp only [s.pop_empty (by omega)]

/-- Fx33 (43_index_memory.md R99). -/
theorem execLdB_eq (x : Reg) (s : State) :
    execLdB x s =
      if s.i.toNat + 3 ≤ Config.memSize then
        .next { s with mem := Memory.putBlock s.mem s.i.toNat (bcdDigits (s.getV x)), lastResult := .ok }
      else s.raise .outOfBoundsAddress := by
  have hl : (bcdDigits (s.getV x)).length = 3 := rfl
  unfold execLdB
  split_ifs with h
  · rw [s.storeAtI_ok _ (by omega)]
  · rw [s.storeAtI_error _ (by simp [bcdDigits]) (by omega)]

/-- Fx55 (R100). -/
theorem execStoreRegs_eq (x : Reg) (s : State) :
    execStoreRegs x s =
      if s.i.toNat + (x.toNat + 1) ≤ Config.memSize then
        .next { s with mem := Memory.putBlock s.mem s.i.toNat (s.firstRegs (x.toNat + 1)), lastResult := .ok }
      else s.raise .outOfBoundsAddress := by
  have hx := x.isLt
  have hl := s.length_firstRegs (x.toNat + 1) (by omega)
  unfold execStoreRegs
  split_ifs with h
  · rw [s.storeAtI_ok _ (by omega)]
  · rw [s.storeAtI_error _ (by intro e; rw [e] at hl; simp at hl) (by omega)]

/-- Fx65 (R101). -/
theorem execLoadRegs_eq (x : Reg) (s : State) :
    execLoadRegs x s =
      if s.i.toNat + (x.toNat + 1) ≤ Config.memSize then
        .next ((s.setRegs 0 ((List.range (x.toNat + 1)).map fun k => Memory.get s.mem (s.i.toNat + k))).setResult .ok)
      else s.raise .outOfBoundsAddress := by
  split_ifs with h
  · rw [execLoadRegs_ok x s h]; rfl
  · rw [execLoadRegs_error x s (by omega)]

/-- What DRW (44_display.md R105) draws: the framebuffer after, and whether it hit. -/
def drawn (x y : Reg) (n : Nibble) (s : State) : Framebuffer × Bool :=
  drawRows (originColumn (s.getV x)) (originRow (s.getV y))
    ((List.range n.toNat).map fun k => Memory.get s.mem (s.i.toNat + k)) (s.fb, false)

/-- Dxyn (R105). -/
theorem execDrw_eq (x y : Reg) (n : Nibble) (s : State) :
    execDrw x y n s =
      if n.toNat = 0 ∨ s.i.toNat + n.toNat ≤ Config.memSize then
        .next (((s.setFb (drawn x y n s).1).setV regF (bool01 (drawn x y n s).2)).setResult .ok)
      else s.raise .outOfBoundsAddress := by
  split_ifs with h
  · rw [execDrw_ok x y n s h]; rfl
  · rw [execDrw_error x y n s (by omega) (by omega)]

/-- Fx0A (45_keys_timers.md R110). -/
theorem execLdVxK_eq (x : Reg) (s : State) :
    execLdVxK x s =
      .next ((s.firstKey.elim (s.setPc (s.pc - 2#16)) fun k => s.setV x (BitVec.ofNat 8 k)).setResult .ok) := by
  unfold execLdVxK
  cases s.firstKey <;> rfl

/-! ### The step (30_encoding.md R67) -/

/-- Everything a step can do: a failed fetch, an `Unrecognized` word, or the instruction the word at PC stands for. -/
theorem step_cases (s : State) :
    (0xFFE < s.pc.toNat ∧ step s = .next (s.setResult (.err .outOfBoundsAddress))) ∨
    (s.pc.toNat ≤ 0xFFE ∧ ∃ w, s.fetch = .ok w ∧
      ((∃ u, decode w = .error u ∧ step s = .next (s.advance.setResult (.unrecognized w))) ∨
        ∃ i, decode w = .ok i ∧ step s = exec i s.advance)) := by
  by_cases h : 0xFFE < s.pc.toNat
  · refine .inl ⟨h, ?_⟩
    unfold step
    rw [s.fetch_error h]
    rfl
  · refine .inr ⟨by omega, _, s.fetch_ok (by omega), ?_⟩
    unfold step
    rw [s.fetch_ok (by omega)]
    simp only
    cases hd : decode (wordOfBytes (Memory.get s.mem s.pc.toNat) (Memory.get s.mem (s.pc.toNat + 1))) with
    | error u => exact .inl ⟨u, rfl, rfl⟩
    | ok i => exact .inr ⟨i, rfl, rfl⟩

/-! ### The ROM load (70_reset_and_hazards.md R139, R140) -/

/-- The load copies a ROM of up to 3584 bytes to 0x200 on, and rejects a longer one. -/
theorem State.loadRom_eq (s : State) (rom : List Byte) :
    s.loadRom rom =
      if rom.length ≤ 3584 then .ok { s with mem := Memory.putBlock s.mem 0x200 rom } else .error .romTooLarge := by
  have hmax : Config.romMax = 3584 := rfl
  unfold State.loadRom
  rw [hmax]
  split_ifs <;> first | rfl | omega

end Sys2Proof.Machine
end

