-- ==== Sys2Proof/Laws/PerInstr.lean ====
section
/-! SUPPORT. Statements made per instruction. TableRow: an instruction's word, under its row's mask in spec/opcode_table.json, is its
row's match. -/

namespace Sys2Proof.Laws.TableRow

/-- The mask of an instruction's row in spec/opcode_table.json. -/
def mask : Instr → Word
  | .sys _ => 0xF000#16
  | .cls => 0xFFFF#16
  | .ret => 0xFFFF#16
  | .jp _ => 0xF000#16
  | .call _ => 0xF000#16
  | .seByte _ _ => 0xF000#16
  | .sneByte _ _ => 0xF000#16
  | .seReg _ _ _ => 0xF000#16
  | .ldByte _ _ => 0xF000#16
  | .addByte _ _ => 0xF000#16
  | .ldReg _ _ => 0xF00F#16
  | .orReg _ _ => 0xF00F#16
  | .andReg _ _ => 0xF00F#16
  | .xorReg _ _ => 0xF00F#16
  | .addReg _ _ => 0xF00F#16
  | .subReg _ _ => 0xF00F#16
  | .shr _ _ => 0xF00F#16
  | .subnReg _ _ => 0xF00F#16
  | .shl _ _ => 0xF00F#16
  | .sneReg _ _ _ => 0xF000#16
  | .ldI _ => 0xF000#16
  | .jpV0 _ => 0xF000#16
  | .rnd _ _ => 0xF000#16
  | .drw _ _ _ => 0xF000#16
  | .skp _ => 0xF0FF#16
  | .sknp _ => 0xF0FF#16
  | .ldVxDt _ => 0xF0FF#16
  | .ldVxK _ => 0xF0FF#16
  | .ldDtVx _ => 0xF0FF#16
  | .ldStVx _ => 0xF0FF#16
  | .addI _ => 0xF0FF#16
  | .ldF _ => 0xF0FF#16
  | .ldB _ => 0xF0FF#16
  | .storeRegs _ => 0xF0FF#16
  | .loadRegs _ => 0xF0FF#16

/-- The match of an instruction's row in spec/opcode_table.json. -/
def matchWord : Instr → Word
  | .sys _ => 0x0000#16
  | .cls => 0x00E0#16
  | .ret => 0x00EE#16
  | .jp _ => 0x1000#16
  | .call _ => 0x2000#16
  | .seByte _ _ => 0x3000#16
  | .sneByte _ _ => 0x4000#16
  | .seReg _ _ _ => 0x5000#16
  | .ldByte _ _ => 0x6000#16
  | .addByte _ _ => 0x7000#16
  | .ldReg _ _ => 0x8000#16
  | .orReg _ _ => 0x8001#16
  | .andReg _ _ => 0x8002#16
  | .xorReg _ _ => 0x8003#16
  | .addReg _ _ => 0x8004#16
  | .subReg _ _ => 0x8005#16
  | .shr _ _ => 0x8006#16
  | .subnReg _ _ => 0x8007#16
  | .shl _ _ => 0x800E#16
  | .sneReg _ _ _ => 0x9000#16
  | .ldI _ => 0xA000#16
  | .jpV0 _ => 0xB000#16
  | .rnd _ _ => 0xC000#16
  | .drw _ _ _ => 0xD000#16
  | .skp _ => 0xE09E#16
  | .sknp _ => 0xE0A1#16
  | .ldVxDt _ => 0xF007#16
  | .ldVxK _ => 0xF00A#16
  | .ldDtVx _ => 0xF015#16
  | .ldStVx _ => 0xF018#16
  | .addI _ => 0xF01E#16
  | .ldF _ => 0xF029#16
  | .ldB _ => 0xF033#16
  | .storeRegs _ => 0xF055#16
  | .loadRegs _ => 0xF065#16

/-- The word fits its table row. -/
def Statement (i : Instr) : Prop := encode i &&& mask i = matchWord i

/-- Format NNN under the mask of its op. -/
theorem formatNNN_op (op : Nibble) (nnn : Addr12) : formatNNN op nnn &&& 0xF000#16 = formatNNN op 0#12 := by
  refine BitVec.eq_of_getLsbD_eq fun k hk => ?_
  simp only [formatNNN, BitVec.getLsbD_and, BitVec.getLsbD_append]
  interval_cases k <;> simp

/-- Format XKK under the mask of its op. -/
theorem formatXKK_op (op : Nibble) (x : Reg) (kk : Byte) : formatXKK op x kk &&& 0xF000#16 = formatXKK op 0#4 0#8 := by
  refine BitVec.eq_of_getLsbD_eq fun k hk => ?_
  simp only [formatXKK, BitVec.getLsbD_and, BitVec.getLsbD_append]
  interval_cases k <;> simp

/-- Format XKK under the mask of its op and its low byte. -/
theorem formatXKK_function (op : Nibble) (x : Reg) (kk : Byte) :
    formatXKK op x kk &&& 0xF0FF#16 = formatXKK op 0#4 kk := by
  refine BitVec.eq_of_getLsbD_eq fun k hk => ?_
  simp only [formatXKK, BitVec.getLsbD_and, BitVec.getLsbD_append]
  interval_cases k <;> simp

/-- Formats XY, XYF and XYN under the mask of the op. -/
theorem formatXYN_op (op : Nibble) (x y : Reg) (n : Nibble) : formatXYN op x y n &&& 0xF000#16 = formatXYN op 0#4 0#4 0#4 := by
  refine BitVec.eq_of_getLsbD_eq fun k hk => ?_
  simp only [formatXYN, BitVec.getLsbD_and, BitVec.getLsbD_append]
  interval_cases k <;> simp

/-- Formats XY, XYF and XYN under the mask of the op and the low nibble. -/
theorem formatXYN_function (op : Nibble) (x y : Reg) (n : Nibble) :
    formatXYN op x y n &&& 0xF00F#16 = formatXYN op 0#4 0#4 n := by
  refine BitVec.eq_of_getLsbD_eq fun k hk => ?_
  simp only [formatXYN, BitVec.getLsbD_and, BitVec.getLsbD_append]
  interval_cases k <;> simp

theorem sys (nnn : Addr12) : Statement (.sys nnn) := formatNNN_op _ _
theorem cls : Statement (.cls) := rfl
theorem ret : Statement (.ret) := rfl
theorem jp (nnn : Addr12) : Statement (.jp nnn) := formatNNN_op _ _
theorem call (nnn : Addr12) : Statement (.call nnn) := formatNNN_op _ _
theorem seByte (x : Reg) (kk : Byte) : Statement (.seByte x kk) := formatXKK_op _ _ _
theorem sneByte (x : Reg) (kk : Byte) : Statement (.sneByte x kk) := formatXKK_op _ _ _
theorem seReg (x : Reg) (y : Reg) (n : Nibble) : Statement (.seReg x y n) := formatXYN_op _ _ _ _
theorem ldByte (x : Reg) (kk : Byte) : Statement (.ldByte x kk) := formatXKK_op _ _ _
theorem addByte (x : Reg) (kk : Byte) : Statement (.addByte x kk) := formatXKK_op _ _ _
theorem ldReg (x : Reg) (y : Reg) : Statement (.ldReg x y) := formatXYN_function _ _ _ _
theorem orReg (x : Reg) (y : Reg) : Statement (.orReg x y) := formatXYN_function _ _ _ _
theorem andReg (x : Reg) (y : Reg) : Statement (.andReg x y) := formatXYN_function _ _ _ _
theorem xorReg (x : Reg) (y : Reg) : Statement (.xorReg x y) := formatXYN_function _ _ _ _
theorem addReg (x : Reg) (y : Reg) : Statement (.addReg x y) := formatXYN_function _ _ _ _
theorem subReg (x : Reg) (y : Reg) : Statement (.subReg x y) := formatXYN_function _ _ _ _
theorem shr (x : Reg) (y : Reg) : Statement (.shr x y) := formatXYN_function _ _ _ _
theorem subnReg (x : Reg) (y : Reg) : Statement (.subnReg x y) := formatXYN_function _ _ _ _
theorem shl (x : Reg) (y : Reg) : Statement (.shl x y) := formatXYN_function _ _ _ _
theorem sneReg (x : Reg) (y : Reg) (n : Nibble) : Statement (.sneReg x y n) := formatXYN_op _ _ _ _
theorem ldI (nnn : Addr12) : Statement (.ldI nnn) := formatNNN_op _ _
theorem jpV0 (nnn : Addr12) : Statement (.jpV0 nnn) := formatNNN_op _ _
theorem rnd (x : Reg) (kk : Byte) : Statement (.rnd x kk) := formatXKK_op _ _ _
theorem drw (x : Reg) (y : Reg) (n : Nibble) : Statement (.drw x y n) := formatXYN_op _ _ _ _
theorem skp (x : Reg) : Statement (.skp x) := formatXKK_function _ _ _
theorem sknp (x : Reg) : Statement (.sknp x) := formatXKK_function _ _ _
theorem ldVxDt (x : Reg) : Statement (.ldVxDt x) := formatXKK_function _ _ _
theorem ldVxK (x : Reg) : Statement (.ldVxK x) := formatXKK_function _ _ _
theorem ldDtVx (x : Reg) : Statement (.ldDtVx x) := formatXKK_function _ _ _
theorem ldStVx (x : Reg) : Statement (.ldStVx x) := formatXKK_function _ _ _
theorem addI (x : Reg) : Statement (.addI x) := formatXKK_function _ _ _
theorem ldF (x : Reg) : Statement (.ldF x) := formatXKK_function _ _ _
theorem ldB (x : Reg) : Statement (.ldB x) := formatXKK_function _ _ _
theorem storeRegs (x : Reg) : Statement (.storeRegs x) := formatXKK_function _ _ _
theorem loadRegs (x : Reg) : Statement (.loadRegs x) := formatXKK_function _ _ _

end Sys2Proof.Laws.TableRow
end

