-- ==== Sys2Proof/Tests/Slice0.lean ====
section
/-! SUPPORT. Tests. The expected results are those of spec/95_test_vectors.md (named L<k>.<m> row r) and of the encodings of
spec/30_encoding.md; the witnesses at the end meet the hypotheses of the statements. -/

namespace Sys2Proof.Tests

open Sys2Proof.Machine

/-- The machine at creation with one word at 0x200. -/
def start (w : Word) : State := State.reset.storeAtPc w

/-- What a test looks at in the next state; a fault or a refusal fails it. -/
def after (o : Result) (p : State → Bool) : Bool :=
  match o with
  | .next t => p t
  | .fault _ => false
  | .refused _ => false

/-! ### Well-formedness: the two checks of R60 -/

theorem test_wf_refuses_sys_0E0 : (Instr.sys 0x0E0#12).wellFormed = false := by decide
theorem test_wf_refuses_sys_0EE : (Instr.sys 0x0EE#12).wellFormed = false := by decide
theorem test_wf_accepts_sys_1E0 : (Instr.sys 0x1E0#12).wellFormed = true := by decide

/-! ### Decoding: each constructor's word, written out from R57 and R59 to R63 -/

theorem test_decode_sys : decode 0b0000000100100011#16 = .ok (.sys 0x123#12) := by decide
theorem test_decode_cls : decode 0b0000000011100000#16 = .ok .cls := by decide
theorem test_decode_ret : decode 0b0000000011101110#16 = .ok .ret := by decide
theorem test_decode_jp : decode 0b0001101010111100#16 = .ok (.jp 0xABC#12) := by decide
theorem test_decode_call : decode 0b0010010000000001#16 = .ok (.call 0x401#12) := by decide
theorem test_decode_seByte : decode 0b0011101000010010#16 = .ok (.seByte 0xA#4 0x12#8) := by decide
theorem test_decode_sneByte : decode 0b0100101000010010#16 = .ok (.sneByte 0xA#4 0x12#8) := by decide
theorem test_decode_seReg : decode 0b0101000100100001#16 = .ok (.seReg 0x1#4 0x2#4 0x1#4) := by decide
theorem test_decode_ldByte : decode 0b0110101000111100#16 = .ok (.ldByte 0xA#4 0x3C#8) := by decide
theorem test_decode_addByte : decode 0b0111101000000101#16 = .ok (.addByte 0xA#4 0x05#8) := by decide
theorem test_decode_ldReg : decode 0b1000000100100000#16 = .ok (.ldReg 0x1#4 0x2#4) := by decide
theorem test_decode_orReg : decode 0b1000000100100001#16 = .ok (.orReg 0x1#4 0x2#4) := by decide
theorem test_decode_andReg : decode 0b1000000100100010#16 = .ok (.andReg 0x1#4 0x2#4) := by decide
theorem test_decode_xorReg : decode 0b1000000100100011#16 = .ok (.xorReg 0x1#4 0x2#4) := by decide
theorem test_decode_addReg : decode 0b1000000000010100#16 = .ok (.addReg 0x0#4 0x1#4) := by decide
theorem test_decode_subReg : decode 0b1000000000010101#16 = .ok (.subReg 0x0#4 0x1#4) := by decide
theorem test_decode_shr : decode 0b1000000100100110#16 = .ok (.shr 0x1#4 0x2#4) := by decide
theorem test_decode_subnReg : decode 0b1000000100100111#16 = .ok (.subnReg 0x1#4 0x2#4) := by decide
theorem test_decode_shl : decode 0b1000111011101110#16 = .ok (.shl 0xE#4 0xE#4) := by decide
theorem test_decode_sneReg : decode 0b1001000100101111#16 = .ok (.sneReg 0x1#4 0x2#4 0xF#4) := by decide
theorem test_decode_ldI : decode 0b1010000100100011#16 = .ok (.ldI 0x123#12) := by decide
theorem test_decode_jpV0 : decode 0b1011001100000000#16 = .ok (.jpV0 0x300#12) := by decide
theorem test_decode_rnd : decode 0b1100000100001111#16 = .ok (.rnd 0x1#4 0x0F#8) := by decide
theorem test_decode_drw : decode 0b1101000100100101#16 = .ok (.drw 0x1#4 0x2#4 0x5#4) := by decide
theorem test_decode_skp : decode 0b1110000110011110#16 = .ok (.skp 0x1#4) := by decide
theorem test_decode_sknp : decode 0b1110000110100001#16 = .ok (.sknp 0x1#4) := by decide
theorem test_decode_ldVxDt : decode 0b1111010100000111#16 = .ok (.ldVxDt 0x5#4) := by decide
theorem test_decode_ldVxK : decode 0b1111001100001010#16 = .ok (.ldVxK 0x3#4) := by decide
theorem test_decode_ldDtVx : decode 0b1111001000010101#16 = .ok (.ldDtVx 0x2#4) := by decide
theorem test_decode_ldStVx : decode 0b1111001000011000#16 = .ok (.ldStVx 0x2#4) := by decide
theorem test_decode_addI : decode 0b1111001000011110#16 = .ok (.addI 0x2#4) := by decide
theorem test_decode_ldF : decode 0b1111000100101001#16 = .ok (.ldF 0x1#4) := by decide
theorem test_decode_ldB : decode 0b1111000100110011#16 = .ok (.ldB 0x1#4) := by decide
theorem test_decode_storeRegs : decode 0b1111001001010101#16 = .ok (.storeRegs 0x2#4) := by decide
theorem test_decode_loadRegs : decode 0b1111111101100101#16 = .ok (.loadRegs 0xF#4) := by decide

/-- L2.2: words of no row are refused by name. -/
theorem test_decode_rejects :
    decode 0x8008#16 = .error .noFamily8Function ∧ decode 0x800F#16 = .error .noFamily8Function ∧
    decode 0xE09F#16 = .error .noFamilyEFunction ∧ decode 0xF028#16 = .error .noFamilyFFunction := by decide

/-- R56: one byte is no instruction, and two bytes are one, the high byte first (R43). -/
theorem test_decode_bytes :
    decodeBytes [0x12#8] = .error .truncated ∧
    decodeBytes [0x12#8, 0x34#8, 0x56#8] = .ok (.jp 0x234#12, [0x56#8]) := by decide

theorem test_encode_bytes : encodeBytes (.drw 0x1#4 0x2#4 0x5#4) = [0xD1#8, 0x25#8] := by decide
theorem test_table_word : decodeTableWord 16 0xE09E = some (.skp 0x0#4) ∧ decodeTableWord 16 0xF0FF = none := by decide

/-! ### Creation, load and fetch (L2.1) -/

/-- L2.1 row 1: the glyphs 0 and F, and the bytes around the font. -/
theorem test_creation_memory :
    (Memory.get State.reset.mem 0x04F, Memory.get State.reset.mem 0x050, Memory.get State.reset.mem 0x051,
      Memory.get State.reset.mem 0x09B, Memory.get State.reset.mem 0x09F, Memory.get State.reset.mem 0x0A0) =
    (0x00#8, 0xF0#8, 0x90#8, 0xF0#8, 0x80#8, 0x00#8) := by decide

/-- L2.1 row 6: the last word of memory is fetched, and PC goes to 0x1000. -/
theorem test_fetch_at_FFE :
    after (step ((State.reset.setPc 0xFFE#16).storeAtPc 0x00E0#16)) (fun t => t.pc == 0x1000#16 && t.lastResult == .ok) = true := by
  decide

/-- L2.1 rows 7 and 8: above 0xFFE the fetch raises and PC stays. -/
theorem test_fetch_at_FFF :
    after (step (State.reset.setPc 0xFFF#16)) (fun t => t.pc == 0xFFF#16 && t.lastResult == .err .outOfBoundsAddress) = true := by
  decide

/-- L2.1 row 9: an odd PC fetches like any other. -/
theorem test_fetch_odd :
    after (step ((State.reset.setPc 0x201#16).storeAtPc 0x6A05#16)) (fun t => t.getV 0xA#4 == 0x05#8 && t.pc == 0x203#16) = true := by
  decide

/-- L2.1 row 10: a machine without a ROM runs the no-op 0x0000. -/
theorem test_no_rom :
    after (step State.reset) (fun t => t.pc == 0x202#16 && t.lastResult == .unrecognized 0x0000#16) = true := by decide

/-- 30_encoding.md R69: a word of no row is a no-op too. -/
theorem test_unrecognized_word :
    after (step (start 0x8008#16)) (fun t => t.pc == 0x202#16 && t.lastResult == .unrecognized 0x8008#16) = true := by decide

/-- 00_scope.md R5 and 20_memory.md R35: 3584, 0xFFF, 80 font bytes, and a font region that ends at 0x0A0. -/
theorem test_parameters :
    Config.romMax = 3584 ∧ Config.addrMax = Config.memSize - 1 ∧ fontData.length = Config.fontGlyphs * Config.glyphBytes ∧
    Config.fontBase + Config.fontGlyphs * Config.glyphBytes = 0x0A0 := by decide

/-- The host's placing of a word makes the next step run it (log 9). -/
theorem test_with_fetch_word :
    after (step (State.reset.withFetchWord 16 0x6A3C)) (fun t => t.getV 0xA#4 == 0x3C#8) = true := by decide

/-! ### Control flow (L2.3) -/

/-- L2.3 row 20. -/
theorem test_sys : after (step (start 0x0123#16)) (fun t => t.pc == 0x202#16 && t.lastResult == .unrecognized 0x0123#16) = true := by
  decide

/-- L2.3 row 1. -/
theorem test_jp : after (step (start 0x1ABC#16)) (fun t => t.pc == 0xABC#16) = true := by decide

/-- L2.3 row 4. -/
theorem test_call_at_15 :
    after (step { start 0x2400#16 with sp := 15 }) (fun t => t.sp == 16 && t.stack[15] == 0x202#16 && t.pc == 0x400#16) = true := by
  decide

/-- L2.3 row 5. -/
theorem test_call_at_16 :
    after (step { start 0x2400#16 with sp := 16 })
      (fun t => t.sp == 16 && t.pc == 0x202#16 && t.lastResult == .err .stackOverflow) = true := by decide

/-- L2.3 row 6: the stale entry stays. -/
theorem test_ret :
    after (step { start 0x00EE#16 with sp := 1, stack := (Vector.replicate 16 0#16).set 0 0x35A#16 })
      (fun t => t.sp == 0 && t.pc == 0x35A#16 && t.stack[0] == 0x35A#16) = true := by decide

/-- L2.3 row 7. -/
theorem test_ret_at_0 :
    after (step (start 0x00EE#16)) (fun t => t.sp == 0 && t.pc == 0x202#16 && t.lastResult == .err .stackUnderflow) = true := by
  decide

/-- L2.3 rows 8 and 9. -/
theorem test_seByte :
    after (step ((start 0x3A12#16).setV 0xA#4 0x12#8)) (fun t => t.pc == 0x204#16) = true ∧
    after (step ((start 0x3A12#16).setV 0xA#4 0x13#8)) (fun t => t.pc == 0x202#16) = true := by decide

/-- L2.3 rows 10 and 11. -/
theorem test_sneByte :
    after (step ((start 0x4A12#16).setV 0xA#4 0x12#8)) (fun t => t.pc == 0x202#16) = true ∧
    after (step ((start 0x4A12#16).setV 0xA#4 0x13#8)) (fun t => t.pc == 0x204#16) = true := by decide

/-- L2.3 rows 13 and 14. -/
theorem test_seReg :
    after (step (((start 0x5AB7#16).setV 0xA#4 7#8).setV 0xB#4 7#8)) (fun t => t.pc == 0x204#16) = true ∧
    after (step (((start 0x5AB0#16).setV 0xA#4 1#8).setV 0xB#4 2#8)) (fun t => t.pc == 0x202#16) = true := by decide

/-- L2.3 rows 15 and 16. -/
theorem test_sneReg :
    after (step (((start 0x9AB0#16).setV 0xA#4 1#8).setV 0xB#4 2#8)) (fun t => t.pc == 0x204#16) = true ∧
    after (step (((start 0x9AB0#16).setV 0xA#4 9#8).setV 0xB#4 9#8)) (fun t => t.pc == 0x202#16) = true := by decide

/-- L2.3 row 18. -/
theorem test_jpV0_top :
    after (step ((start 0xBFFF#16).setV 0#4 0xFF#8)) (fun t => t.pc == 0x10FE#16 && t.lastResult == .ok) = true := by decide

/-- L2.3 row 19. -/
theorem test_jpV0_ignores_V5 : after (step ((start 0xB300#16).setV 5#4 0x40#8)) (fun t => t.pc == 0x300#16) = true := by decide

/-! ### Arithmetic and logic (L1.3, L2.4) -/

/-- L1.3. -/
theorem test_ldByte : after (step (start 0x6A3C#16)) (fun t => t.getV 0xA#4 == 0x3C#8 && t.pc == 0x202#16) = true := by decide

/-- L2.4 row 1. -/
theorem test_addByte_wraps :
    after (step (((start 0x7AFF#16).setV 0xA#4 1#8).setV 0xF#4 0x55#8))
      (fun t => t.getV 0xA#4 == 0x00#8 && t.getV 0xF#4 == 0x55#8) = true := by decide

/-- L2.4 row 2. -/
theorem test_ldReg : after (step ((start 0x8120#16).setV 2#4 0x5A#8)) (fun t => t.getV 1#4 == 0x5A#8) = true := by decide

/-- L2.4 row 3. -/
theorem test_orReg :
    after (step ((((start 0x8121#16).setV 1#4 0xF0#8).setV 2#4 0x0F#8).setV 0xF#4 0x55#8))
      (fun t => t.getV 1#4 == 0xFF#8 && t.getV 0xF#4 == 0x55#8) = true := by decide

/-- L2.4 row 4. -/
theorem test_andReg :
    after (step ((((start 0x8122#16).setV 1#4 0xF0#8).setV 2#4 0x3C#8).setV 0xF#4 0x55#8))
      (fun t => t.getV 1#4 == 0x30#8 && t.getV 0xF#4 == 0x55#8) = true := by decide

/-- L2.4 row 5. -/
theorem test_xorReg :
    after (step ((((start 0x8123#16).setV 1#4 0xFF#8).setV 2#4 0x0F#8).setV 0xF#4 0x55#8))
      (fun t => t.getV 1#4 == 0xF0#8 && t.getV 0xF#4 == 0x55#8) = true := by decide

/-- L2.4 row 7. -/
theorem test_addReg_carry :
    after (step (((start 0x8124#16).setV 1#4 0x80#8).setV 2#4 0x80#8)) (fun t => t.getV 1#4 == 0x00#8 && t.getV 0xF#4 == 1#8) = true := by
  decide

/-- L2.4 row 8: with x = F the flag is what VF keeps. -/
theorem test_addReg_into_VF :
    after (step (((start 0x8F14#16).setV 0xF#4 0x10#8).setV 1#4 0x05#8)) (fun t => t.getV 0xF#4 == 0#8) = true := by decide

/-- L2.4 row 10: the comparison is strict. -/
theorem test_subReg_equal :
    after (step (((start 0x8125#16).setV 1#4 5#8).setV 2#4 5#8)) (fun t => t.getV 1#4 == 0#8 && t.getV 0xF#4 == 0#8) = true := by
  decide

/-- L1.5. -/
theorem test_subReg_borrow :
    after (step (((start 0x8015#16).setV 0#4 1#8).setV 1#4 2#8)) (fun t => t.getV 0#4 == 0xFF#8 && t.getV 0xF#4 == 0#8) = true := by
  decide

/-- L2.4 row 14: Vy is ignored. -/
theorem test_shr_ignores_Vy :
    after (step (((start 0x8126#16).setV 1#4 4#8).setV 2#4 0xFF#8)) (fun t => t.getV 1#4 == 2#8 && t.getV 0xF#4 == 0#8) = true := by
  decide

/-- L2.4 row 15. -/
theorem test_shr_VF : after (step ((start 0x8F06#16).setV 0xF#4 3#8)) (fun t => t.getV 0xF#4 == 1#8) = true := by decide

/-- L2.4 row 16. -/
theorem test_subnReg :
    after (step (((start 0x8127#16).setV 1#4 2#8).setV 2#4 5#8)) (fun t => t.getV 1#4 == 3#8 && t.getV 0xF#4 == 1#8) = true := by
  decide

/-- L2.4 row 18. -/
theorem test_subnReg_wraps :
    after (step (((start 0x8127#16).setV 1#4 5#8).setV 2#4 2#8)) (fun t => t.getV 1#4 == 0xFD#8 && t.getV 0xF#4 == 0#8) = true := by
  decide

/-- L2.4 row 19. -/
theorem test_shl :
    after (step ((start 0x810E#16).setV 1#4 0x81#8)) (fun t => t.getV 1#4 == 2#8 && t.getV 0xF#4 == 1#8) = true := by decide

/-- L2.4 rows 24 to 26: the draw is masked, whatever it is; each RND takes one. -/
theorem test_rnd (s : State) : after (execRnd 1#4 0x0F#8 s) (fun t => t.getV 1#4 == Config.randomByte s.draws &&& 0x0F#8 &&
    t.draws == s.draws + 1) = true := by
  simp [after, execRnd, State.randomByte, State.done, State.setResult, State.getV, State.setV]

/-! ### Index and memory (L2.5) -/

/-- L2.5 row 1. -/
theorem test_ldI : after (step (start 0xA123#16)) (fun t => t.i == 0x123#16) = true := by decide

/-- L2.5 row 3. -/
theorem test_addI_wraps : after (step (((start 0xF11E#16).setI 0xFFFF#16).setV 1#4 1#8)) (fun t => t.i == 0#16) = true := by decide

/-- L2.5 row 5. -/
theorem test_ldF_no_mask : after (step ((start 0xF029#16).setV 0#4 0xFF#8)) (fun t => t.i == 0x54B#16) = true := by decide

/-- L1.7. -/
theorem test_ldB :
    after (step (((start 0xF033#16).setV 0#4 234#8).setI 0x300#16))
      (fun t => t.mem == [(0x200, 0xF0#8), (0x201, 0x33#8), (0x300, 2#8), (0x301, 3#8), (0x302, 4#8)]) = true := by decide

/-- L2.5 row 10: nothing is written. -/
theorem test_ldB_above :
    after (step (((start 0xF033#16).setV 0#4 100#8).setI 0xFFE#16))
      (fun t => t.mem == (start 0xF033#16).mem && t.pc == 0x202#16 && t.lastResult == .err .outOfBoundsAddress) = true := by decide

/-- L2.5 row 12. -/
theorem test_storeRegs_top :
    after (step ((((start 0xF155#16).setV 0#4 0xAB#8).setV 1#4 0xCD#8).setI 0xFFE#16))
      (fun t => Memory.get t.mem 0xFFE == 0xAB#8 && Memory.get t.mem 0xFFF == 0xCD#8 && t.i == 0xFFE#16) = true := by decide

/-- L2.5 row 13: no partial write. -/
theorem test_storeRegs_above :
    after (step (((start 0xF255#16).setV 0#4 0xAB#8).setI 0xFFE#16))
      (fun t => t.mem == (start 0xF255#16).mem && t.lastResult == .err .outOfBoundsAddress) = true := by decide

/-- L2.5 row 17: glyph 0 read back, V5 untouched. -/
theorem test_loadRegs :
    after (step (((start 0xF465#16).setV 5#4 0x77#8).setI 0x050#16))
      (fun t => t.getV 0#4 == 0xF0#8 && t.getV 1#4 == 0x90#8 && t.getV 4#4 == 0xF0#8 && t.getV 5#4 == 0x77#8) = true := by decide

/-- L2.5 row 16. -/
theorem test_loadRegs_above :
    after (step ((start 0xF065#16).setI 0x1000#16)) (fun t => t.lastResult == .err .outOfBoundsAddress) = true := by decide

/-! ### Display (L2.6) -/

/-- R103. -/
theorem test_cls :
    after (step ((start 0x00E0#16).setFb (Framebuffer.put Framebuffer.clear 63 31 true)))
      (fun t => t.fb == Framebuffer.clear) = true := by decide

/-- The sprite byte b at 0x300, the draw at x and y, the word 0xD011. -/
def drawStart (b x y : Byte) : State :=
  match (((start 0xD011#16).setV 0#4 x).setV 1#4 y).setI 0x300#16 with
  | s => { s with mem := Memory.put s.mem 0x300 b }

/-- L2.6 row 2: columns past 63 are clipped, not wrapped. -/
theorem test_drw_clips :
    after (step (drawStart 0xFF#8 62#8 0#8))
      (fun t => Framebuffer.get t.fb 62 0 && Framebuffer.get t.fb 63 0 && !Framebuffer.get t.fb 0 0 && !Framebuffer.get t.fb 61 0 &&
        t.getV 0xF#4 == 0#8) = true := by decide

/-- L2.6 row 10: a set pixel turned off. -/
theorem test_drw_collision :
    after (step ((drawStart 0x10#8 0#8 0#8).setFb (Framebuffer.put Framebuffer.clear 3 0 true)))
      (fun t => t.fb == Framebuffer.clear && t.getV 0xF#4 == 1#8) = true := by decide

/-! ### Keys and timers (L2.7) -/

/-- L2.7 rows 1 and 4. -/
theorem test_skp :
    after (step (((start 0xE19E#16).setV 1#4 5#8).setKey 5 true)) (fun t => t.pc == 0x204#16) = true ∧
    after (step { (start 0xE19E#16).setV 1#4 0x15#8 with key := Vector.replicate 16 true }) (fun t => t.pc == 0x202#16) = true := by
  decide

/-- L2.7 rows 3 and 5. -/
theorem test_sknp :
    after (step ((start 0xE1A1#16).setV 1#4 5#8)) (fun t => t.pc == 0x204#16) = true ∧
    after (step ((start 0xE1A1#16).setV 1#4 0x15#8)) (fun t => t.pc == 0x204#16) = true := by decide

/-- L2.7 row 6: no key, the same instruction again. -/
theorem test_ldVxK_none : after (step (start 0xF30A#16)) (fun t => t.pc == 0x200#16 && t.lastResult == .ok) = true := by decide

/-- L2.7 row 7: the least key. -/
theorem test_ldVxK_least :
    after (step (((start 0xF30A#16).setKey 7 true).setKey 3 true)) (fun t => t.getV 3#4 == 3#8 && t.pc == 0x202#16) = true := by decide

/-- L2.7 row 11. -/
theorem test_ldVxDt : after (step ((start 0xF107#16).setDt 2#8)) (fun t => t.getV 1#4 == 2#8) = true := by decide

/-- L2.7 row 9. -/
theorem test_ldDtVx : after (step ((start 0xF015#16).setV 0#4 3#8)) (fun t => t.dt == 3#8 && t.st == 0#8) = true := by decide

/-- L2.7 row 14. -/
theorem test_ldStVx :
    after (step ((start 0xF218#16).setV 2#4 0x1E#8)) (fun t => t.st == 0x1E#8 && t.dt == 0#8 && t.soundOn) = true := by decide

/-- L2.7 rows 12 and 13. -/
theorem test_tick :
    State.reset.tick = State.reset ∧
    (((State.reset.setDt 1#8).setSt 5#8).tick.dt = 0#8 ∧ ((State.reset.setDt 1#8).setSt 5#8).tick.st = 4#8) := by decide

/-! ### The host -/

/-- L1.1(a): a loaded program jumps to an odd address, and the step is Ok. -/
theorem test_session_load_step :
    (match Session.create.run [.load [0x12#8, 0x01#8], .step, .tick] with
      | .next (c, r) => c.machine.pc == 0x201#16 && r == [.loadOk, .stepped .ok, .nothing]
      | .fault _ => false
      | .refused _ => false) = true := by decide

/-- R141: a load after a step is refused. -/
theorem test_session_late_load :
    (match Session.create.run [.step, .load []] with
      | .next _ => false
      | .fault _ => false
      | .refused r => r == .loadNotAllowed) = true := by decide

/-- R142: the end of a run at a self-jump. -/
theorem test_end_of_run : (start 0x1200#16).endOfRun = true ∧ (start 0x1202#16).endOfRun = false := by decide

/-! ### Witnesses: states and operands that meet the hypotheses of the statements -/

theorem witness_DecodeOfEncode : (Instr.drw 0xF#4 0x0#4 0xF#4).wellFormed = true := by decide
theorem witness_EncodeOfDecode : decode 0x6A3C#16 = .ok (.ldByte 0xA#4 0x3C#8) := by decide

theorem witness_StepRunsDecodedInstruction :
    (start 0x6A3C#16).pc.toNat ≤ 0xFFE ∧
    (0x6A3C#16).toNat = 256 * (Memory.get (start 0x6A3C#16).mem (start 0x6A3C#16).pc.toNat).toNat +
      (Memory.get (start 0x6A3C#16).mem ((start 0x6A3C#16).pc.toNat + 1)).toNat ∧
    decode 0x6A3C#16 = .ok (.ldByte 0xA#4 0x3C#8) := by decide

theorem witness_UnrecognizedWordIsNoOp :
    (start 0x8008#16).pc.toNat ≤ 0xFFE ∧
    (0x8008#16).toNat = 256 * (Memory.get (start 0x8008#16).mem (start 0x8008#16).pc.toNat).toNat +
      (Memory.get (start 0x8008#16).mem ((start 0x8008#16).pc.toNat + 1)).toNat ∧
    decode 0x8008#16 = .error .noFamily8Function := by decide

theorem witness_FetchAboveMemoryRaises : (State.reset.setPc 0xFFF#16).pc.toNat > 0xFFE := by decide

theorem reset_inv : State.reset.Inv where
  memory := by decide
  stack := fun k _ hk => absurd hk (Nat.not_lt_zero k)
  pc := by decide
  result := trivial

theorem witness_EveryStepKeepsInv : ∃ t, State.reset.Inv ∧ step State.reset = .next t := ⟨_, reset_inv, rfl⟩

/-- One witness per host operation. -/
theorem witness_HostOperationsKeepInv :
    Session.create.machine.Inv ∧ (∃ p, Session.create.apply (.load [0x12#8, 0x00#8]) = .next p) ∧
    (∃ p, Session.create.apply .step = .next p) ∧ (∃ p, Session.create.apply .tick = .next p) ∧
    (∃ p, Session.create.apply (.setKey 15 true) = .next p) ∧ (∃ p, Session.create.apply .read = .next p) :=
  ⟨reset_inv, ⟨_, rfl⟩, ⟨_, rfl⟩, ⟨_, rfl⟩, ⟨_, rfl⟩, ⟨_, rfl⟩⟩

theorem witness_EvenTargetsKeepPcEven :
    EvenPc (start 0x1300#16) ∧
    (∀ (w : Word) (i : Instr), (start 0x1300#16).fetch = .ok w → decode w = .ok i → EvenTarget i (start 0x1300#16)) ∧
    ∃ t, step (start 0x1300#16) = .next t := by
  refine ⟨⟨by decide, fun k _ hk => absurd hk (Nat.not_lt_zero k)⟩, fun w i hw hi => ?_, ⟨_, rfl⟩⟩
  have hf : (start 0x1300#16).fetch = .ok 0x1300#16 := by decide
  rw [hf] at hw
  cases hw
  have hd : decode 0x1300#16 = .ok (.jp 0x300#12) := by decide
  rw [hd] at hi
  cases hi
  show (0x300#12).toNat % 2 = 0
  decide

theorem witness_CanonicalMemoriesAreEqual :
    Memory.wf [(0x050, 0x01#8), (0xFFF, 0x02#8)] ∧
    ∀ a : Nat, a ≤ 0xFFF →
      Memory.get [(0x050, 0x01#8), (0xFFF, 0x02#8)] a = Memory.get [(0x050, 0x01#8), (0xFFF, 0x02#8)] a :=
  ⟨by decide, fun _ _ => rfl⟩

/-- x = 1 and I = 0xFFE: the last word of memory. -/
theorem witness_FetchSeesStoredBytes :
    Memory.wf (State.reset.setI 0xFFE#16).mem ∧ 1 ≤ (0x1#4).toNat ∧
    (State.reset.setI 0xFFE#16).i.toNat + (0x1#4).toNat ≤ 0xFFF := by decide

theorem witness_CallPushesReturnAddress : ({ State.reset with sp := 15 } : State).sp.val < 16 := by decide
theorem witness_StackErrorsAtItsEnds : ({ State.reset with sp := 16 } : State).sp.val = 16 ∧ State.reset.sp.val = 0 := by decide

/-- The deepest and the shallowest return. -/
theorem witness_ReturnPopsReturnAddress :
    ({ State.reset with sp := 16 } : State).sp.val = 15 + 1 ∧ ({ State.reset with sp := 1 } : State).sp.val = 0 + 1 := by decide

theorem witness_StackIsLastInFirstOut : State.reset.sp.val + (List.replicate 16 0x202#16).length ≤ 16 := by decide

/-- The clauses on x of AddWithCarryResult, SubtractResults and ShiftResults: a destination that is not VF, and a third register. -/
theorem witness_destinations_of_flag_writers : (0xE#4 : Reg) ≠ 0xF#4 ∧ (0x0#4 : Reg) ≠ 0xE#4 ∧ (0x0#4 : Reg) ≠ 0xF#4 := by decide

/-- I = 0xFFD is the last place for three digits, 0xFFE the first that raises. -/
theorem witness_DecimalDigitsStored :
    Memory.wf State.reset.mem ∧ (State.reset.setI 0xFFD#16).i.toNat + 2 ≤ 0xFFF ∧ (State.reset.setI 0xFFE#16).i.toNat + 2 > 0xFFF := by
  decide

/-- I = 0xFFE: x = 1 fits, x = 2 raises (R100). -/
theorem witness_RegistersStored :
    Memory.wf State.reset.mem ∧ (State.reset.setI 0xFFE#16).i.toNat + (0x1#4).toNat ≤ 0xFFF ∧
    (State.reset.setI 0xFFE#16).i.toNat + (0x2#4).toNat > 0xFFF := by decide

/-- x = 0: I = 0xFFF fits, 0x1000 raises (R101). -/
theorem witness_RegistersLoaded :
    (State.reset.setI 0xFFF#16).i.toNat + (0x0#4).toNat ≤ 0xFFF ∧ (State.reset.setI 0x1000#16).i.toNat + (0x0#4).toNat > 0xFFF := by
  decide

/-- x = F and I = 0xFF0: all sixteen registers at the top of memory. -/
theorem witness_StoreThenLoadRestoresRegisters :
    Memory.wf State.reset.mem ∧ (State.reset.setI 0xFF0#16).i.toNat + (0xF#4).toNat ≤ 0xFFF := by decide

/-- n = 0 at any I; the last two rows that fit, the first that do not (L2.6 rows 5, 6, 8). -/
theorem witness_DrawResult :
    (0x0#4).toNat = 0 ∧ (State.reset.setI 0xFFE#16).i.toNat + (0x2#4).toNat - 1 ≤ 0xFFF ∧ 0 < (0x3#4).toNat ∧
    (State.reset.setI 0xFFE#16).i.toNat + (0x3#4).toNat - 1 > 0xFFF := by decide

/-- A sprite that hits, over a set pixel, and one that does not, over a clear screen. -/
theorem witness_DrawResult_flag :
    SpriteHits ((drawStart 0x80#8 0#8 0#8).setFb (Framebuffer.put Framebuffer.clear 0 0 true)) 0x0#4 0x1#4 0x1#4 ∧
    ¬SpriteHits (drawStart 0x80#8 0#8 0#8) 0x0#4 0x1#4 0x1#4 := by
  refine ⟨⟨0, 0, by decide, by decide, by decide, by decide⟩, ?_⟩
  rintro ⟨c, r, hc, hr, -, hf⟩
  have : Framebuffer.get (drawStart 0x80#8 0#8 0#8).fb c r = false := by
    show Framebuffer.get Framebuffer.clear c r = false
    unfold Framebuffer.get Framebuffer.clear
    split <;> simp
  rw [this] at hf
  cases hf

/-- Two draws of the same sprite at one origin; the same states meet the hypotheses of SecondDrawFlagAsR106Words. -/
theorem witness_DrawTwiceRestoresScreen :
    ∃ t u : State, ((0x1#4).toNat = 0 ∨ (drawStart 0x81#8 0#8 0#8).i.toNat + (0x1#4).toNat - 1 ≤ 0xFFF) ∧
      exec (.drw 0x0#4 0x1#4 0x1#4) (drawStart 0x81#8 0#8 0#8) = .next t ∧
      (t.getV 0x0#4).toNat % 64 = ((drawStart 0x81#8 0#8 0#8).getV 0x0#4).toNat % 64 ∧
      (t.getV 0x1#4).toNat % 32 = ((drawStart 0x81#8 0#8 0#8).getV 0x1#4).toNat % 32 ∧
      exec (.drw 0x0#4 0x1#4 0x1#4) t = .next u ∧ SpriteTurnsOn (drawStart 0x81#8 0#8 0#8) 0x0#4 0x1#4 0x1#4 :=
  ⟨_, _, .inr (by decide), rfl, by decide, by decide, rfl, ⟨0, 0, by decide, by decide, by decide, by decide⟩⟩

/-- A sprite byte of zeros turns nothing on: the other flag clause of DrawTwiceRestoresScreen (90_conflicts.md C7). -/
theorem witness_DrawTwiceRestoresScreen_blank : ¬SpriteTurnsOn (drawStart 0x00#8 0#8 0#8) 0x0#4 0x1#4 0x1#4 := by
  rintro ⟨c, r, -, -, hs, -⟩
  have hr : r = 0 := by
    have := hs
    unfold spriteAt at this
    rw [Bool.and_eq_true, decide_eq_true_eq] at this
    have e : ((drawStart 0x00#8 0#8 0#8).getV 0x1#4).toNat % 32 = 0 := by decide
    have h1 : (0x1#4 : Nibble).toNat = 1 := by decide
    omega
  subst hr
  have hb : Memory.get (drawStart 0x00#8 0#8 0#8).mem ((drawStart 0x00#8 0#8 0#8).i.toNat +
      (0 - ((drawStart 0x00#8 0#8 0#8).getV 0x1#4).toNat % 32)) = 0x00#8 := by decide
  unfold spriteAt at hs
  rw [hb] at hs
  simp at hs

/-- Vx = 15 names a key, Vx = 16 none (R107). -/
theorem witness_KeySkips :
    ((State.reset.setV 0x0#4 15#8).getV 0x0#4).toNat < 16 ∧ 16 ≤ ((State.reset.setV 0x0#4 16#8).getV 0x0#4).toNat := by decide

/-- Key F alone pressed, and no key pressed. -/
theorem witness_WaitForKeyResult :
    ((State.reset.setKey 15 true).key[15] = true ∧
      ∀ (j : Nat) (hj : j < 15), (State.reset.setKey 15 true).key[j]'(Nat.lt_succ_of_lt hj) = false) ∧
    ∀ (k : Nat) (h : k < 16), State.reset.key[k]'h = false := by decide

/-- 3584 bytes load, 3585 do not (R140). -/
theorem witness_RomLoad :
    Memory.wf State.reset.mem ∧ (List.replicate 3584 0xAA#8).length ≤ 4096 - 0x200 ∧
    (List.replicate 3585 0xAA#8).length > 4096 - 0x200 := by
  rw [List.length_replicate, List.length_replicate]
  decide

theorem witness_SessionLoadsAtMostOnce : ∃ p, (Session.mk State.reset .fresh).apply .step = .next p := ⟨_, rfl⟩
theorem witness_SetKeyChangesOneKey : 15 < 16 ∧ 16 ≤ 16 := by decide

theorem witness_ErrorsHaveNoPartialEffect :
    ∃ t, exec (.call 0x400#12) { State.reset with sp := 16 } = .next t ∧ t.lastResult = .err .stackOverflow := ⟨_, rfl, rfl⟩

theorem witness_ErrorsAreExactlyThese :
    ∃ t, exec (.ldB 0x0#4) (State.reset.setI 0xFFE#16) = .next t ∧
      errorOf (.ldB 0x0#4) (State.reset.setI 0xFFE#16) = some .outOfBoundsAddress := ⟨_, rfl, rfl⟩

theorem witness_OnlyDestinationsAreWritten :
    ∃ t, exec (.loadRegs 0x2#4) State.reset = .next t ∧ writesReg (.loadRegs 0x2#4) 0x3#4 = false := ⟨_, rfl, rfl⟩

theorem witness_OnlyControlTransfersMovePc :
    ∃ t, exec (.ldI 0x300#12) State.reset = .next t ∧ writesPc (.ldI 0x300#12) = false := ⟨_, rfl, rfl⟩

/-- An instruction outside every list of writers. -/
theorem witness_EachPieceHasItsWriters :
    ∃ t, exec (.jp 0x300#12) State.reset = .next t ∧ (∀ x, Instr.jp 0x300#12 ≠ .ldB x) ∧ (∀ x, Instr.jp 0x300#12 ≠ .storeRegs x) ∧
      (∀ a, Instr.jp 0x300#12 ≠ .ldI a) ∧ (∀ x, Instr.jp 0x300#12 ≠ .addI x) ∧ (∀ x, Instr.jp 0x300#12 ≠ .ldF x) ∧
      (∀ a, Instr.jp 0x300#12 ≠ .call a) ∧ Instr.jp 0x300#12 ≠ .ret ∧ (∀ x, Instr.jp 0x300#12 ≠ .ldDtVx x) ∧
      (∀ x, Instr.jp 0x300#12 ≠ .ldStVx x) ∧ Instr.jp 0x300#12 ≠ .cls ∧ ∀ x y n, Instr.jp 0x300#12 ≠ .drw x y n :=
  ⟨_, rfl, nofun, nofun, nofun, nofun, nofun, nofun, nofun, nofun, nofun, nofun, nofun⟩

theorem witness_OnlyKeyInstructionsReadKeys :
    ∃ t, readsKeys (.ldByte 0x1#4 0x02#8) = false ∧ exec (.ldByte 0x1#4 0x02#8) State.reset = .next t := ⟨_, rfl, rfl⟩

theorem witness_SoundTimerIsUnobservable : ∃ t, step (start 0xF218#16) = .next t := ⟨_, rfl⟩

/-- A stale entry that differs, and a CALL that overwrites it. -/
theorem witness_StaleStackEntriesAreUnobservable :
    SameButStale (start 0x2400#16) { start 0x2400#16 with stack := Vector.replicate 16 0x123#16 } ∧
    ∃ t, step (start 0x2400#16) = .next t :=
  ⟨⟨rfl, fun k _ hk => absurd hk (Nat.not_lt_zero k)⟩, ⟨_, rfl⟩⟩

end Sys2Proof.Tests
end

section
/-! PROOFS. The words of 30_encoding.md R61 to R64 as formats of R57, the family each high nibble selects, and each family's table
read in order by an if chain; from these, the statements on families 5, 8, 9, E and F. -/

namespace Sys2Proof

/-! ### Numbers as words of a format -/

/-- A word of format XYN, given by its number. -/
theorem ofNat_eq_formatXYN {base : Nat} {op : Nibble} (hbase : base = 4096 * op.toNat) (x y : Reg) (n : Nibble) :
    BitVec.ofNat 16 (base + 256 * x.toNat + 16 * y.toNat + n.toNat) = formatXYN op x y n := by
  rw [hbase, ← formatXYN_toNat, BitVec.ofNat_toNat, BitVec.setWidth_eq]

/-- A word of format XKK, given by its number. -/
theorem ofNat_eq_formatXKK {base : Nat} {op : Nibble} (hbase : base = 4096 * op.toNat) (x : Reg) (kk : Byte) :
    BitVec.ofNat 16 (base + 256 * x.toNat + kk.toNat) = formatXKK op x kk := by
  rw [hbase, ← formatXKK_toNat, BitVec.ofNat_toNat, BitVec.setWidth_eq]

/-! ### The family a high nibble selects (R59) -/

section Families

variable {w : Word}

theorem decode_of_fieldOp_five (h : fieldOp w = 0x5#4) : decode w = .ok (.seReg (fieldX w) (fieldY w) (fieldN w)) := by
  simp only [decode, h]

theorem decode_of_fieldOp_eight (h : fieldOp w = 0x8#4) : decode w = decodeFamily8 w := by
  simp only [decode, h]

theorem decode_of_fieldOp_nine (h : fieldOp w = 0x9#4) : decode w = .ok (.sneReg (fieldX w) (fieldY w) (fieldN w)) := by
  simp only [decode, h]

theorem decode_of_fieldOp_E (h : fieldOp w = 0xE#4) : decode w = decodeFamilyE w := by
  simp only [decode, h]

theorem decode_of_fieldOp_F (h : fieldOp w = 0xF#4) : decode w = decodeFamilyF w := by
  simp [decode, h]

end Families

/-! ### The tables of families 8, E and F -/

/-- Family 8 as R61's table, read in order on the low nibble. -/
theorem decodeFamily8_eq_ite (w : Word) :
    decodeFamily8 w =
      if fieldN w = 0x0#4 then .ok (.ldReg (fieldX w) (fieldY w))
      else if fieldN w = 0x1#4 then .ok (.orReg (fieldX w) (fieldY w))
      else if fieldN w = 0x2#4 then .ok (.andReg (fieldX w) (fieldY w))
      else if fieldN w = 0x3#4 then .ok (.xorReg (fieldX w) (fieldY w))
      else if fieldN w = 0x4#4 then .ok (.addReg (fieldX w) (fieldY w))
      else if fieldN w = 0x5#4 then .ok (.subReg (fieldX w) (fieldY w))
      else if fieldN w = 0x6#4 then .ok (.shr (fieldX w) (fieldY w))
      else if fieldN w = 0x7#4 then .ok (.subnReg (fieldX w) (fieldY w))
      else if fieldN w = 0xE#4 then .ok (.shl (fieldX w) (fieldY w))
      else .error .noFamily8Function := by
  unfold decodeFamily8
  split
  case h_10 h₁ h₂ h₃ h₄ h₅ h₆ h₇ h₈ h₉ =>
    rw [if_neg h₁, if_neg h₂, if_neg h₃, if_neg h₄, if_neg h₅, if_neg h₆, if_neg h₇, if_neg h₈, if_neg h₉]
  all_goals next h => simp [h]

/-- Family E as R62's table, read in order on the low byte. -/
theorem decodeFamilyE_eq_ite (w : Word) :
    decodeFamilyE w =
      if fieldKK w = 0x9E#8 then .ok (.skp (fieldX w))
      else if fieldKK w = 0xA1#8 then .ok (.sknp (fieldX w))
      else .error .noFamilyEFunction := by
  unfold decodeFamilyE
  split
  case h_3 h₁ h₂ => rw [if_neg h₁, if_neg h₂]
  all_goals next h => simp [h]

/-- Family F as R63's table, read in order on the low byte. -/
theorem decodeFamilyF_eq_ite (w : Word) :
    decodeFamilyF w =
      if fieldKK w = 0x07#8 then .ok (.ldVxDt (fieldX w))
      else if fieldKK w = 0x0A#8 then .ok (.ldVxK (fieldX w))
      else if fieldKK w = 0x15#8 then .ok (.ldDtVx (fieldX w))
      else if fieldKK w = 0x18#8 then .ok (.ldStVx (fieldX w))
      else if fieldKK w = 0x1E#8 then .ok (.addI (fieldX w))
      else if fieldKK w = 0x29#8 then .ok (.ldF (fieldX w))
      else if fieldKK w = 0x33#8 then .ok (.ldB (fieldX w))
      else if fieldKK w = 0x55#8 then .ok (.storeRegs (fieldX w))
      else if fieldKK w = 0x65#8 then .ok (.loadRegs (fieldX w))
      else .error .noFamilyFFunction := by
  unfold decodeFamilyF
  split
  case h_10 h₁ h₂ h₃ h₄ h₅ h₆ h₇ h₈ h₉ =>
    rw [if_neg h₁, if_neg h₂, if_neg h₃, if_neg h₄, if_neg h₅, if_neg h₆, if_neg h₇, if_neg h₈, if_neg h₉]
  all_goals next h => simp [h]

/-! ### The low nibble of families 5 and 9 (R64) -/

/-- SE Vx, Vy reads no nibble. -/
theorem Machine.exec_seReg_nibble (x y : Reg) (n m : Nibble) (s : Machine.State) :
    Machine.exec (.seReg x y n) s = Machine.exec (.seReg x y m) s := rfl

/-- SNE Vx, Vy reads no nibble. -/
theorem Machine.exec_sneReg_nibble (x y : Reg) (n m : Nibble) (s : Machine.State) :
    Machine.exec (.sneReg x y n) s = Machine.exec (.sneReg x y m) s := rfl

/-! ### The statements -/

/-- Settles O2: the word is of format XYN with high nibble 8, and family 8's table is read at its fields. -/
theorem familyEightDecodesOnLowNibble : Obligations.FamilyEightDecodesOnLowNibble := by
  intro x y n
  obtain ⟨hop, hx, hy, hn⟩ := fields_XYN 0x8#4 x y n
  rw [ofNat_eq_formatXYN (base := 0x8000) (op := 0x8#4) rfl, decode_of_fieldOp_eight hop, decodeFamily8_eq_ite, hx, hy, hn]

/-- Settles O3: the words are of format XKK with high nibbles E and F, and each family's table is read at its fields. -/
theorem familiesEAndFDecodeOnLowByte : Obligations.FamiliesEAndFDecodeOnLowByte := by
  intro x kk
  constructor
  · obtain ⟨hop, hx, hkk⟩ := fields_XKK 0xE#4 x kk
    rw [ofNat_eq_formatXKK (base := 0xE000) (op := 0xE#4) rfl, decode_of_fieldOp_E hop, decodeFamilyE_eq_ite, hx, hkk]
  · obtain ⟨hop, hx, hkk⟩ := fields_XKK 0xF#4 x kk
    rw [ofNat_eq_formatXKK (base := 0xF000) (op := 0xF#4) rfl, decode_of_fieldOp_F hop, decodeFamilyF_eq_ite, hx, hkk]

/-- Settles O4: the words are of format XYN with high nibbles 5 and 9, and neither meaning reads the nibble. -/
theorem lowNibbleIgnoredInFamilies5And9 : Obligations.LowNibbleIgnoredInFamilies5And9 := by
  intro x y n
  refine ⟨?_, ?_, fun s => ⟨Machine.exec_seReg_nibble .., Machine.exec_sneReg_nibble ..⟩⟩
  · obtain ⟨hop, hx, hy, hn⟩ := fields_XYN 0x5#4 x y n
    rw [ofNat_eq_formatXYN (base := 0x5000) (op := 0x5#4) rfl, decode_of_fieldOp_five hop, hx, hy, hn]
  · obtain ⟨hop, hx, hy, hn⟩ := fields_XYN 0x9#4 x y n
    rw [ofNat_eq_formatXYN (base := 0x9000) (op := 0x9#4) rfl, decode_of_fieldOp_nine hop, hx, hy, hn]

end Sys2Proof
end

section
/-! PROOFS. A general register written and the instruction completed: what it changes and what it leaves; from this and the words of
families 6 and 7, the statements on LD Vx, kk and ADD Vx, kk (42_alu.md R84, R85). -/

namespace Sys2Proof

/-! ### The family a high nibble selects (R59) -/

theorem decode_of_fieldOp_six {w : Word} (h : fieldOp w = 0x6#4) : decode w = .ok (.ldByte (fieldX w) (fieldKK w)) := by
  simp only [decode, h]

theorem decode_of_fieldOp_seven {w : Word} (h : fieldOp w = 0x7#4) : decode w = .ok (.addByte (fieldX w) (fieldKK w)) := by
  simp only [decode, h]

/-! ### One register written -/

namespace Machine

/-- A write to Vx leaves every other register alone (10_state.md R12). -/
theorem sameRegsBut_setV (x : Reg) (b : Byte) (s : State) : SameRegsBut x s (s.setV x b) :=
  fun j hj => State.getV_setV_ne s x j b hj

/-- A write to Vx changes no piece of state but the registers. -/
theorem sameButRegs_setV (x : Reg) (b : Byte) (s : State) : SameButRegs s (s.setV x b) :=
  ⟨rfl, rfl, ⟨rfl, rfl⟩, ⟨rfl, rfl⟩, fun _ => rfl, ⟨rfl, rfl⟩, rfl⟩

/-- An instruction that writes b to Vx and completes, with everything it leaves unchanged. -/
theorem done_setV_result (x : Reg) (b : Byte) (s : State) :
    ∃ t, (s.setV x b).done = .next t ∧ t.getV x = b ∧ SameRegsBut x s t ∧ SameButRegs s t ∧ t.lastResult = .ok :=
  ⟨(s.setV x b).setResult .ok, rfl, State.getV_setV_self s x b, sameRegsBut_setV x b s, sameButRegs_setV x b s, rfl⟩

/-- LD Vx, kk writes kk to Vx and completes. -/
theorem exec_ldByte (x : Reg) (kk : Byte) (s : State) : exec (.ldByte x kk) s = (s.setV x kk).done := rfl

/-- ADD Vx, kk writes the wrapped sum to Vx, no flag, and completes. -/
theorem exec_addByte (x : Reg) (kk : Byte) (s : State) : exec (.addByte x kk) s = (s.setV x (s.getV x + kk)).done := rfl

end Machine

/-! ### The statements -/

/-- Settles O28: the word is of format XKK with high nibble 6, and the meaning is one register write. -/
theorem loadByteResult : Obligations.LoadByteResult := by
  intro x kk s
  constructor
  · obtain ⟨hop, hx, hkk⟩ := fields_XKK 0x6#4 x kk
    rw [ofNat_eq_formatXKK (base := 0x6000) (op := 0x6#4) rfl, decode_of_fieldOp_six hop, hx, hkk]
  · rw [Machine.exec_ldByte]
    exact Machine.done_setV_result x kk s

/-- Settles O29: the word is of format XKK with high nibble 7, and the meaning is one register write, of a sum of bytes. -/
theorem addByteResult : Obligations.AddByteResult := by
  intro x kk s
  constructor
  · obtain ⟨hop, hx, hkk⟩ := fields_XKK 0x7#4 x kk
    rw [ofNat_eq_formatXKK (base := 0x7000) (op := 0x7#4) rfl, decode_of_fieldOp_seven hop, hx, hkk]
  · obtain ⟨t, hexec, hval, hframe⟩ := Machine.done_setV_result x (s.getV x + kk) s
    refine ⟨t, (Machine.exec_addByte x kk s).trans hexec, ?_, hframe⟩
    rw [hval, BitVec.toNat_add]

end Sys2Proof
end

section
/-! PROOFS. The index register written and the instruction completed: what it changes and what it leaves; from this and family F's
table, the statement on LD F, Vx (43_index_memory.md R98). -/

namespace Sys2Proof

namespace Machine

/-- A write to I changes no other piece of state (10_state.md R15). -/
theorem sameButI_setI (a : Word) (s : State) : SameButI s (s.setI a) :=
  ⟨fun j => State.getV_setI s a j, rfl, ⟨rfl, rfl⟩, ⟨rfl, rfl⟩, fun _ => rfl, ⟨rfl, rfl⟩, rfl⟩

/-- An instruction that writes a to I and completes, with everything it leaves unchanged. -/
theorem done_setI_result (a : Word) (s : State) :
    ∃ t, (s.setI a).done = .next t ∧ t.i = a ∧ SameButI s t ∧ t.lastResult = .ok :=
  ⟨(s.setI a).setResult .ok, rfl, rfl, sameButI_setI a s, rfl⟩

/-- LD F, Vx writes the address of the glyph of the full byte Vx to I and completes. -/
theorem exec_ldF (x : Reg) (s : State) : exec (.ldF x) s = (s.setI (glyphAddress (s.getV x))).done := rfl

end Machine

/-- Settles O36: the word is family F's at low byte 29, and the meaning is one write of I, whose address never wraps. -/
theorem glyphAddressResult : Obligations.GlyphAddressResult := by
  intro x s
  constructor
  · have hword : 0xF029 + 256 * x.toNat = 0xF000 + 256 * x.toNat + (0x29#8).toNat := Nat.add_right_comm 0xF000 0x29 _
    rw [hword, (familiesEAndFDecodeOnLowByte x 0x29#8).2]
    rfl
  · obtain ⟨t, hexec, hi, hframe⟩ := Machine.done_setI_result (Machine.glyphAddress (s.getV x)) s
    refine ⟨t, (Machine.exec_ldF x s).trans hexec, ?_, hframe⟩
    rw [hi, Machine.glyphAddress_toNat]

end Sys2Proof
end

section
/-! PROOFS. Memory replaced and all else kept, and the two answers of the ROM load; from these, the statement on the ROM load
(70_reset_and_hazards.md R139, R140). -/

namespace Sys2Proof

namespace Machine

/-- New contents of memory change no other piece of state. -/
theorem sameButMemory_setMem (m : Memory) (s : State) : SameButMemory s { s with mem := m } :=
  ⟨State.getV_congr s _ rfl, rfl, rfl, ⟨rfl, rfl⟩, ⟨rfl, rfl⟩, ⟨rfl, rfl⟩, rfl⟩

/-- A ROM of up to 3584 bytes is written to memory from 0x200 on. -/
theorem State.loadRom_ok (s : State) {rom : List Byte} (h : rom.length ≤ 3584) :
    s.loadRom rom = .ok { s with mem := Memory.putBlock s.mem 0x200 rom } := by
  rw [State.loadRom_eq, if_pos h]

/-- A ROM of more than 3584 bytes is rejected. -/
theorem State.loadRom_error (s : State) {rom : List Byte} (h : 3584 < rom.length) :
    s.loadRom rom = .error .romTooLarge := by
  rw [State.loadRom_eq, if_neg (Nat.not_le_of_lt h)]

/-- A load that fails before the first step leaves the session as it was, and the host gets the error. -/
theorem Session.apply_load_of_error {s : State} {rom : List Byte} {k : ErrorKind} (h : s.loadRom rom = .error k) :
    (Session.mk s .fresh).apply (.load rom) = .next (Session.mk s .fresh, .loadErr k) := by
  simp only [Session.apply, Session.load, h]

end Machine

/-- Settles O49: the load is one block write that ends inside memory, or the error that leaves the session as it was. -/
theorem romLoadCopiesOrRejects : Obligations.RomLoadCopiesOrRejects := by
  intro s rom hwf
  constructor
  · intro hlen
    have hfits : 0x200 + rom.length ≤ Config.memSize := by simp only [Config.memSize]; omega
    exact ⟨_, s.loadRom_ok hlen, fun k hk => Machine.Memory.get_putBlock_inside s.mem 0x200 k rom hwf hfits hk,
      fun b hb => Machine.Memory.get_putBlock_outside s.mem 0x200 b rom hb, Machine.sameButMemory_setMem _ s, rfl⟩
  · intro hlen
    have herror := s.loadRom_error hlen
    exact ⟨herror, Machine.Session.apply_load_of_error herror⟩

end Sys2Proof
end

section
/-! PROOFS. The decoder and the encoder against each other (30_encoding.md R54 to R65): a word is the format of its own fields, each
instruction is read back from its word, and the words that are rejected or of the SYS class. -/

namespace Sys2Proof

/-! ### The fields of a word built from a format -/

section Fields

variable (op : Nibble) (x y : Reg) (n : Nibble) (kk : Byte) (nnn : Addr12)

@[simp] theorem fieldOp_formatNNN : fieldOp (formatNNN op nnn) = op := (fields_NNN op nnn).1
@[simp] theorem fieldNNN_formatNNN : fieldNNN (formatNNN op nnn) = nnn := (fields_NNN op nnn).2
@[simp] theorem fieldOp_formatXKK : fieldOp (formatXKK op x kk) = op := (fields_XKK op x kk).1
@[simp] theorem fieldX_formatXKK : fieldX (formatXKK op x kk) = x := (fields_XKK op x kk).2.1
@[simp] theorem fieldKK_formatXKK : fieldKK (formatXKK op x kk) = kk := (fields_XKK op x kk).2.2
@[simp] theorem fieldOp_formatXYN : fieldOp (formatXYN op x y n) = op := (fields_XYN op x y n).1
@[simp] theorem fieldX_formatXYN : fieldX (formatXYN op x y n) = x := (fields_XYN op x y n).2.1
@[simp] theorem fieldY_formatXYN : fieldY (formatXYN op x y n) = y := (fields_XYN op x y n).2.2.1
@[simp] theorem fieldN_formatXYN : fieldN (formatXYN op x y n) = n := (fields_XYN op x y n).2.2.2

end Fields

/-! ### A word is the format of its own fields -/

section Formats

variable {w : Word} {op : Nibble}

theorem formatNNN_fields (hop : fieldOp w = op) : formatNNN op (fieldNNN w) = w := by
  apply BitVec.eq_of_toNat_eq
  rw [← hop, formatNNN_toNat, fieldOp_toNat, fieldNNN_toNat]
  omega

theorem formatXKK_fields {kk : Byte} (hop : fieldOp w = op) (hkk : fieldKK w = kk) :
    formatXKK op (fieldX w) kk = w := by
  apply BitVec.eq_of_toNat_eq
  rw [← hop, ← hkk, formatXKK_toNat, fieldOp_toNat, fieldX_toNat, fieldKK_toNat]
  omega

theorem formatXYN_fields {n : Nibble} (hop : fieldOp w = op) (hn : fieldN w = n) :
    formatXYN op (fieldX w) (fieldY w) n = w := by
  apply BitVec.eq_of_toNat_eq
  rw [← hop, ← hn, formatXYN_toNat, fieldOp_toNat, fieldX_toNat, fieldY_toNat, fieldN_toNat]
  omega

end Formats

/-! ### The words of family 0 (R60, R73) -/

/-- A word of the SYS class is neither CLS nor RET. -/
theorem formatNNN_zero_ne {nnn : Addr12} (h : (Instr.sys nnn).wellFormed = true) :
    formatNNN 0x0#4 nnn ≠ 0x00E0#16 ∧ formatNNN 0x0#4 nnn ≠ 0x00EE#16 := by
  simp only [Instr.wellFormed, Bool.and_eq_true, bne_iff_ne] at h
  constructor
  · intro e; exact h.1 (by rw [← fieldNNN_formatNNN 0x0#4 nnn, e]; rfl)
  · intro e; exact h.2 (by rw [← fieldNNN_formatNNN 0x0#4 nnn, e]; rfl)

theorem decode_sys {nnn : Addr12} (h : (Instr.sys nnn).wellFormed = true) :
    decode (formatNNN 0x0#4 nnn) = .ok (.sys nnn) := by
  obtain ⟨hcls, hret⟩ := formatNNN_zero_ne h
  simp [decode, decodeFamily0, hcls, hret]

/-- Settles O5, format by format: the fields of an instruction's word are its operands, and they select its row. -/
theorem decodeOfEncode : Obligations.DecodeOfEncode := by
  intro i hwf
  cases i with
  | sys nnn => exact decode_sys hwf
  | cls | ret => rfl
  | jp nnn | call nnn | ldI nnn | jpV0 nnn => simp [encode, decode]
  | seByte x kk | sneByte x kk | ldByte x kk | addByte x kk | rnd x kk => simp [encode, decode]
  | seReg x y n | sneReg x y n | drw x y n => simp [encode, decode]
  | ldReg x y | orReg x y | andReg x y | xorReg x y | addReg x y | subReg x y | shr x y | subnReg x y | shl x y =>
    simp [encode, decode_of_fieldOp_eight, decodeFamily8]
  | skp x | sknp x => simp [encode, decode_of_fieldOp_E, decodeFamilyE]
  | ldVxDt x | ldVxK x | ldDtVx x | ldStVx x | addI x | ldF x | ldB x | storeRegs x | loadRegs x =>
    simp [encode, decode_of_fieldOp_F, decodeFamilyF]

/-! ### What a decoded word is the encoding of, family by family -/

/-- The instruction stands for the word w: it is well-formed and w is its encoding. -/
def StandsFor (i : Instr) (w : Word) : Prop := i.wellFormed = true ∧ encode i = w

section Families

variable {w : Word} {i : Instr}

theorem standsFor_of_decodeFamily0 (hop : fieldOp w = 0x0#4) (h : decodeFamily0 w = .ok i) : StandsFor i w := by
  have hw := formatNNN_fields hop
  unfold decodeFamily0 at h
  split_ifs at h with hcls hret <;> obtain rfl := Except.ok.inj h
  · exact ⟨rfl, hcls.symm⟩
  · exact ⟨rfl, hret.symm⟩
  · refine ⟨?_, hw⟩
    simp only [Instr.wellFormed, Bool.and_eq_true, bne_iff_ne]
    constructor
    · intro e; exact hcls (by rw [← hw, e]; rfl)
    · intro e; exact hret (by rw [← hw, e]; rfl)

theorem standsFor_of_decodeFamily8 (hop : fieldOp w = 0x8#4) (h : decodeFamily8 w = .ok i) : StandsFor i w := by
  unfold decodeFamily8 at h
  split at h
  case h_10 => cases h
  all_goals
    next hn =>
      obtain rfl := Except.ok.inj h
      exact ⟨rfl, formatXYN_fields hop hn⟩

theorem standsFor_of_decodeFamilyE (hop : fieldOp w = 0xE#4) (h : decodeFamilyE w = .ok i) : StandsFor i w := by
  unfold decodeFamilyE at h
  split at h
  case h_3 => cases h
  all_goals
    next hkk =>
      obtain rfl := Except.ok.inj h
      exact ⟨rfl, formatXKK_fields hop hkk⟩

theorem standsFor_of_decodeFamilyF (hop : fieldOp w = 0xF#4) (h : decodeFamilyF w = .ok i) : StandsFor i w := by
  unfold decodeFamilyF at h
  split at h
  case h_10 => cases h
  all_goals
    next hkk =>
      obtain rfl := Except.ok.inj h
      exact ⟨rfl, formatXKK_fields hop hkk⟩

end Families

/-- The high nibble left when none of 0 to E is the word's (R59). -/
theorem nibble_eq_F : ∀ n : Nibble,
    n ∉ [0x0#4, 0x1#4, 0x2#4, 0x3#4, 0x4#4, 0x5#4, 0x6#4, 0x7#4, 0x8#4, 0x9#4, 0xA#4, 0xB#4, 0xC#4, 0xD#4, 0xE#4] →
    n = 0xF#4 := by decide

/-- Settles O6: the word is the format of its own fields, and the family it belongs to says which instruction's format that is. -/
theorem encodeOfDecode : Obligations.EncodeOfDecode := by
  intro w i h
  unfold decode at h
  split at h
  case h_1 hop => exact standsFor_of_decodeFamily0 hop h
  case h_9 hop => exact standsFor_of_decodeFamily8 hop h
  case h_15 hop => exact standsFor_of_decodeFamilyE hop h
  case h_16 =>
    have hop : fieldOp w = 0xF#4 := by
      simp only [imp_false] at *
      exact nibble_eq_F _ (by simp [*])
    exact standsFor_of_decodeFamilyF hop h
  case h_2 hop | h_3 hop | h_11 hop | h_12 hop => cases h; exact ⟨rfl, formatNNN_fields hop⟩
  case h_4 hop | h_5 hop | h_7 hop | h_8 hop | h_13 hop => cases h; exact ⟨rfl, formatXKK_fields hop rfl⟩
  case h_6 hop | h_10 hop | h_14 hop => cases h; exact ⟨rfl, formatXYN_fields hop rfl⟩

/-! ### The words of R65, and the word of CLS -/

/-- A well-formed instruction is decoded from its own encoding only. -/
theorem decode_eq_ok_iff (w : Word) (i : Instr) : decode w = .ok i ↔ StandsFor i w :=
  ⟨encodeOfDecode w i, fun ⟨hwf, hw⟩ => hw ▸ decodeOfEncode i hwf⟩

/-- The word of an instruction of the SYS class is its operand. -/
theorem encode_sys_toNat (nnn : Addr12) : (encode (.sys nnn)).toNat = nnn.toNat := by
  simp only [encode, formatNNN_toNat, BitVec.toNat_ofNat]
  omega

theorem wellFormed_sys_iff (nnn : Addr12) :
    (Instr.sys nnn).wellFormed = true ↔ nnn.toNat ≠ 0x0E0 ∧ nnn.toNat ≠ 0x0EE := by
  simp only [Instr.wellFormed, Bool.and_eq_true, bne_iff_ne]
  bv_omega

/-- The SYS class (R73). -/
theorem decode_eq_sys_iff (w : Word) :
    (∃ nnn, decode w = .ok (.sys nnn)) ↔ (w.toNat < 0x1000 ∧ w.toNat ≠ 0x00E0 ∧ w.toNat ≠ 0x00EE) := by
  simp only [decode_eq_ok_iff, StandsFor, wellFormed_sys_iff]
  constructor
  · rintro ⟨nnn, hwf, rfl⟩
    rw [encode_sys_toNat]
    exact ⟨nnn.isLt, hwf⟩
  · rintro ⟨hlt, hne⟩
    have hnnn : (BitVec.ofNat 12 w.toNat).toNat = w.toNat := Nat.mod_eq_of_lt hlt
    exact ⟨BitVec.ofNat 12 w.toNat, by rwa [hnnn], BitVec.eq_of_toNat_eq (by rw [encode_sys_toNat, hnnn])⟩

/-- The rejected words of family 8 (R61). -/
theorem decodeFamily8_error_iff (w : Word) :
    (∃ u, decodeFamily8 w = .error u) ↔ w.toNat % 16 ∈ [0x8, 0x9, 0xA, 0xB, 0xC, 0xD, 0xF] := by
  rw [← fieldN_toNat, decodeFamily8_eq_ite]
  generalize fieldN w = n
  split_ifs <;> simp <;> bv_omega

/-- The rejected words of family E (R62). -/
theorem decodeFamilyE_error_iff (w : Word) : (∃ u, decodeFamilyE w = .error u) ↔ w.toNat % 256 ∉ [0x9E, 0xA1] := by
  rw [← fieldKK_toNat, decodeFamilyE_eq_ite]
  generalize fieldKK w = kk
  split_ifs <;> simp <;> bv_omega

/-- The rejected words of family F (R63). -/
theorem decodeFamilyF_error_iff (w : Word) :
    (∃ u, decodeFamilyF w = .error u) ↔
      w.toNat % 256 ∉ [0x07, 0x0A, 0x15, 0x18, 0x1E, 0x29, 0x33, 0x55, 0x65] := by
  rw [← fieldKK_toNat, decodeFamilyF_eq_ite]
  generalize fieldKK w = kk
  split_ifs <;> simp <;> bv_omega

theorem decodeFamily0_ne_error (w : Word) (u : Unrecognized) : decodeFamily0 w ≠ .error u := by
  unfold decodeFamily0
  split_ifs <;> nofun

/-- Only families 8, E and F reject words (R65). -/
theorem decode_error_iff (w : Word) :
    (∃ u, decode w = .error u) ↔
      (fieldOp w = 0x8#4 ∧ ∃ u, decodeFamily8 w = .error u) ∨ (fieldOp w = 0xE#4 ∧ ∃ u, decodeFamilyE w = .error u) ∨
      (fieldOp w = 0xF#4 ∧ ∃ u, decodeFamilyF w = .error u) := by
  constructor
  · rintro ⟨u, h⟩
    unfold decode at h
    split at h
    case h_1 => exact absurd h (decodeFamily0_ne_error w u)
    case h_9 hop => exact .inl ⟨hop, u, h⟩
    case h_15 hop => exact .inr (.inl ⟨hop, u, h⟩)
    case h_16 =>
      have hop : fieldOp w = 0xF#4 := by
        simp only [imp_false] at *
        exact nibble_eq_F _ (by simp [*])
      exact .inr (.inr ⟨hop, u, h⟩)
    all_goals cases h
  · rintro (⟨hop, h⟩ | ⟨hop, h⟩ | ⟨hop, h⟩)
    · rwa [decode_of_fieldOp_eight hop]
    · rwa [decode_of_fieldOp_E hop]
    · rwa [decode_of_fieldOp_F hop]

theorem fieldOp_eq_iff (w : Word) (op : Nibble) : fieldOp w = op ↔ w.toNat / 0x1000 = op.toNat := by
  rw [← BitVec.toNat_inj, fieldOp_toNat]

/-- Settles O7: the SYS class by its encoding, the rejected words by the tables of families 8, E and F. -/
theorem unrecognizedWordsAreExactlyThese : Obligations.UnrecognizedWordsAreExactlyThese := by
  intro w
  refine ⟨decode_eq_sys_iff w, ?_⟩
  rw [decode_error_iff, decodeFamily8_error_iff, decodeFamilyE_error_iff, decodeFamilyF_error_iff]
  simp only [fieldOp_eq_iff, BitVec.toNat_ofNat, Nat.reducePow, Nat.reduceMod]

/-- Only the whole word 00E0 is CLS (D5). -/
theorem decode_eq_cls_iff (w : Word) : decode w = .ok .cls ↔ w = 0x00E0#16 := by
  rw [decode_eq_ok_iff]
  exact ⟨fun ⟨_, hw⟩ => hw.symm, fun hw => ⟨rfl, hw.symm⟩⟩

/-- Settles O1: fifteen closed words, read by the decoder. -/
theorem wordsOfTheSpecDecode : Obligations.WordsOfTheSpecDecode := by
  unfold Obligations.WordsOfTheSpecDecode
  decide

end Sys2Proof
end

section
/-! PROOFS. What an instruction can do, said once: it raises the error that errorOf names (60_exceptions.md R116, R117, R119) and
changes nothing else, or it completes with its effect. From this, the statements on errors and on what the instructions write. -/

namespace Sys2Proof

namespace Machine

/-! ### The effect of an instruction that raises nothing -/

/-- PC two further on where the condition holds (41_control_flow.md R77). -/
def State.skipped (s : State) (cond : Bool) : State := s.setPc (if cond then s.pc + 2#16 else s.pc)

/-- PC pushed and replaced by a (R75); at depth 16, where CALL raises, the array is kept. -/
def State.called (s : State) (a : Word) : State :=
  { s with
    stack := s.stack.setIfInBounds s.sp.val s.pc
    sp := ⟨min (s.sp.val + 1) 16, Nat.lt_succ_of_le (Nat.min_le_right _ _)⟩
    pc := a }

/-- The top entry popped into PC (R76); at depth 0, where RET raises, entry 0 and the depth kept. -/
def State.returned (s : State) : State :=
  { s with
    sp := ⟨s.sp.val - 1, Nat.lt_of_le_of_lt (Nat.sub_le _ _) s.sp.isLt⟩
    pc := s.stack[s.sp.val - 1]'(Nat.lt_of_le_of_lt (Nat.sub_le_sub_right s.sp_le 1) (by decide)) }

/-- The bytes at I, I+1, ... written (20_memory.md R45). -/
def State.storedAtI (s : State) (bs : List Byte) : State := { s with mem := Memory.putBlock s.mem s.i.toNat bs }

/-- The n bytes at I, I+1, ... -/
def State.bytesAtI (s : State) (n : Nat) : List Byte := (List.range n).map fun k => Memory.get s.mem (s.i.toNat + k)

/-- The least pressed key in Vx, or PC two back (45_keys_timers.md R110). -/
def State.keyTaken (s : State) (x : Reg) : State :=
  { s with
    v := s.firstKey.elim s.v fun k => s.v.set x.toNat (BitVec.ofNat 8 k) x.isLt
    pc := s.firstKey.elim (s.pc - 2#16) fun _ => s.pc }

theorem State.keyTaken_of_some {s : State} {k : Nat} (x : Reg) (h : s.firstKey = some k) :
    s.keyTaken x = s.setV x (BitVec.ofNat 8 k) := by
  rw [State.keyTaken, h]
  rfl

theorem State.keyTaken_of_none {s : State} (x : Reg) (h : s.firstKey = none) : s.keyTaken x = s.setPc (s.pc - 2#16) := by
  rw [State.keyTaken, h]
  rfl

/-- What an instruction that raises no error does to the state, the result it returns apart (exec_eq_errorOf). -/
def effect (i : Instr) (s : State) : State :=
  match i with
  | .sys _ => s
  | .cls => s.setFb Framebuffer.clear
  | .ret => s.returned
  | .jp nnn => s.setPc (zext16 nnn)
  | .call nnn => s.called (zext16 nnn)
  | .seByte x kk => s.skipped (s.getV x == kk)
  | .sneByte x kk => s.skipped (s.getV x != kk)
  | .seReg x y _ => s.skipped (s.getV x == s.getV y)
  | .ldByte x kk => s.setV x kk
  | .addByte x kk => s.setV x (s.getV x + kk)
  | .ldReg x y => s.setV x (s.getV y)
  | .orReg x y => s.setV x (s.getV x ||| s.getV y)
  | .andReg x y => s.setV x (s.getV x &&& s.getV y)
  | .xorReg x y => s.setV x (s.getV x ^^^ s.getV y)
  | .addReg x y => s.setVAndFlag x (s.getV x + s.getV y) (carryFlag (s.getV x) (s.getV y))
  | .subReg x y => s.setVAndFlag x (s.getV x - s.getV y) (noBorrowFlag (s.getV x) (s.getV y))
  | .shr x _ => s.setVAndFlag x (s.getV x >>> 1) (shrFlag (s.getV x))
  | .subnReg x y => s.setVAndFlag x (s.getV y - s.getV x) (noBorrowFlag (s.getV y) (s.getV x))
  | .shl x _ => s.setVAndFlag x (s.getV x <<< 1) (shlFlag (s.getV x))
  | .sneReg x y _ => s.skipped (s.getV x != s.getV y)
  | .ldI nnn => s.setI (zext16 nnn)
  | .jpV0 nnn => s.setPc (zext16 nnn + wordOfByte (s.getV reg0))
  | .rnd x kk => s.randomByte.2.setV x (s.randomByte.1 &&& kk)
  | .drw x y n => (s.setFb (drawn x y n s).1).setV regF (bool01 (drawn x y n s).2)
  | .skp x => s.skipped (s.keyAt (s.getV x))
  | .sknp x => s.skipped (!s.keyAt (s.getV x))
  | .ldVxDt x => s.setV x s.dt
  | .ldVxK x => s.keyTaken x
  | .ldDtVx x => s.setDt (s.getV x)
  | .ldStVx x => s.setSt (s.getV x)
  | .addI x => s.setI (s.i + wordOfByte (s.getV x))
  | .ldF x => s.setI (glyphAddress (s.getV x))
  | .ldB x => s.storedAtI (bcdDigits (s.getV x))
  | .storeRegs x => s.storedAtI (s.firstRegs (x.toNat + 1))
  | .loadRegs x => { s with v := (s.setRegs 0 (s.bytesAtI (x.toNat + 1))).v }

/-- What an instruction that raises no error returns: Ok, with the marker for the SYS class (30_encoding.md R69). -/
def answer (i : Instr) : StepResult :=
  match i with
  | .sys nnn => .unrecognized (zext16 nnn)
  | _ => .ok

/-! ### The instruction either raises or has its effect -/

section Effect

variable {i : Instr} {s : State} {k : ErrorKind}

theorem skipIf_eq_skipped (s : State) (cond : Bool) : s.skipIf cond = .next ((s.skipped cond).setResult .ok) :=
  s.skipIf_eq cond

theorem execCall_eq_called (nnn : Addr12) (s : State) :
    execCall nnn s =
      if s.sp.val < 16 then .next ((s.called (zext16 nnn)).setResult .ok) else s.raise .stackOverflow := by
  rw [execCall_eq]
  split_ifs with h
  · have hsp : min (s.sp.val + 1) 16 = s.sp.val + 1 := Nat.min_eq_left h
    have hstack : s.stack.setIfInBounds s.sp.val s.pc = s.stack.set s.sp.val s.pc h := by grind
    simp only [State.called, State.setResult, hstack, hsp]
  · rfl

theorem execRet_eq_returned (s : State) :
    execRet s = if 0 < s.sp.val then .next (s.returned.setResult .ok) else s.raise .stackUnderflow := by
  rw [execRet_eq]
  split_ifs <;> rfl

theorem execLdVxK_eq_keyTaken (x : Reg) (s : State) : execLdVxK x s = .next ((s.keyTaken x).setResult .ok) := by
  rw [execLdVxK_eq]
  cases h : s.firstKey with
  | none => rw [State.keyTaken_of_none x h]; rfl
  | some k => rw [State.keyTaken_of_some x h]; rfl

theorem effect_loadRegs (x : Reg) (s : State) : effect (.loadRegs x) s = s.setRegs 0 (s.bytesAtI (x.toNat + 1)) :=
  (State.setRegs_frame s 0 _).symm

/-- A guard that holds exactly where no error is named. -/
theorem ite_eq_elim_of_iff {p q : Prop} [Decidable p] [Decidable q] {t s : State} {k : ErrorKind} (h : p ↔ ¬q) :
    (if p then Host.Outcome.next t else s.raise k) = (if q then some k else none).elim (.next t) s.raise := by
  by_cases hq : q
  · rw [if_pos hq, if_neg fun hp => h.mp hp hq]
    rfl
  · rw [if_neg hq, if_pos (h.mpr hq)]
    rfl

/-- Everything an instruction can do: it raises the error that errorOf names, or has its effect and returns its answer. -/
theorem exec_eq_errorOf (i : Instr) (s : State) :
    exec i s = (errorOf i s).elim (.next ((effect i s).setResult (answer i))) s.raise := by
  cases i with
  | call nnn => exact (execCall_eq_called nnn s).trans (ite_eq_elim_of_iff (by have := s.sp_le; omega))
  | ret => exact (execRet_eq_returned s).trans (ite_eq_elim_of_iff (by omega))
  | drw x y n => exact (execDrw_eq x y n s).trans (ite_eq_elim_of_iff (by simp only [Config.memSize]; omega))
  | ldB x => exact (execLdB_eq x s).trans (ite_eq_elim_of_iff (by simp only [Config.memSize]; omega))
  | storeRegs x => exact (execStoreRegs_eq x s).trans (ite_eq_elim_of_iff (by simp only [Config.memSize]; omega))
  | loadRegs x =>
    rw [effect_loadRegs]
    exact (execLoadRegs_eq x s).trans (ite_eq_elim_of_iff (by simp only [Config.memSize]; omega))
  | ldVxK x => exact execLdVxK_eq_keyTaken x s
  | seByte | sneByte | seReg | sneReg | skp | sknp => exact skipIf_eq_skipped s _
  | _ => rfl

theorem exec_of_errorOf_some (h : errorOf i s = some k) : exec i s = s.raise k := by
  rw [exec_eq_errorOf, h]
  rfl

theorem exec_of_errorOf_none (h : errorOf i s = none) : exec i s = .next ((effect i s).setResult (answer i)) := by
  rw [exec_eq_errorOf, h]
  rfl

/-- The two cases of exec_eq_errorOf. -/
theorem exec_cases (i : Instr) (s : State) :
    (∃ k, errorOf i s = some k ∧ exec i s = .next (s.setResult (.err k))) ∨
    (errorOf i s = none ∧ exec i s = .next ((effect i s).setResult (answer i))) := by
  cases h : errorOf i s with
  | some k => exact .inl ⟨k, rfl, exec_of_errorOf_some h⟩
  | none => exact .inr ⟨rfl, exec_of_errorOf_none h⟩

/-- The same, of a next state that exec answers. -/
theorem exec_next_cases {t : State} (h : exec i s = .next t) :
    (∃ k, errorOf i s = some k ∧ t = s.setResult (.err k)) ∨
    (errorOf i s = none ∧ t = (effect i s).setResult (answer i)) := by
  rcases exec_cases i s with ⟨k, hk, he⟩ | ⟨hk, he⟩
  · exact .inl ⟨k, hk, Host.Outcome.next.inj (h.symm.trans he)⟩
  · exact .inr ⟨hk, Host.Outcome.next.inj (h.symm.trans he)⟩

theorem answer_ne_err (i : Instr) (k : ErrorKind) : answer i ≠ .err k := by
  cases i <;> nofun

end Effect

end Machine

open Machine

/-- Settles O53: an error result comes from the raising case only, and there it is errorOf's. -/
theorem errorsAreExactlyThese : Obligations.ErrorsAreExactlyThese := by
  intro i s t k h
  rcases exec_next_cases h with ⟨k', hk, rfl⟩ | ⟨hk, rfl⟩
  · simp [hk]
  · simp [hk, answer_ne_err]

/-- Settles O52: an error result comes from the raising case only, which records the error in the old state. -/
theorem errorsHaveNoPartialEffect : Obligations.ErrorsHaveNoPartialEffect := by
  intro i s t k h hres
  rcases exec_next_cases h with ⟨k', -, rfl⟩ | ⟨-, rfl⟩
  · obtain rfl : k' = k := StepResult.err.inj hres
    rfl
  · exact absurd hres (answer_ne_err i k)

namespace Machine

/-! ### What an effect leaves as it was -/

section Frame

variable {i : Instr} {s : State}

theorem setVAndFlag_getV_of_ne {x j : Reg} (hx : j ≠ x) (hF : j ≠ regF) (result flag : Byte) (s : State) :
    (s.setVAndFlag x result flag).getV j = s.getV j := by
  rw [State.setVAndFlag, State.getV_setV_ne _ _ _ _ hF, State.getV_setV_ne _ _ _ _ hx]

/-- Fx65 loads V0..Vx only (43_index_memory.md R101). -/
theorem getV_loadRegs_of_gt {x j : Reg} (hj : x.toNat < j.toNat) : (effect (.loadRegs x) s).getV j = s.getV j := by
  have hlen : (s.bytesAtI (x.toNat + 1)).length = x.toNat + 1 := by simp [State.bytesAtI]
  have hx := x.isLt
  rw [effect_loadRegs, State.getV_setRegs _ _ _ _ (by omega), dif_neg (by omega)]

theorem getV_effect_of_not_writesReg {j : Reg} (h : writesReg i j = false) : (effect i s).getV j = s.getV j := by
  cases i with
  | ldByte | addByte | ldReg | orReg | andReg | xorReg | rnd | ldVxDt =>
    exact State.getV_setV_ne _ _ _ _ (beq_eq_false_iff_ne.mp h)
  | ldVxK x =>
    show (s.keyTaken x).getV j = s.getV j
    cases hk : s.firstKey with
    | none => rw [State.keyTaken_of_none x hk, State.getV_setPc]
    | some k => rw [State.keyTaken_of_some x hk, State.getV_setV_ne _ _ _ _ (beq_eq_false_iff_ne.mp h)]
  | addReg | subReg | shr | subnReg | shl =>
    simp only [writesReg, Bool.or_eq_false_iff, beq_eq_false_iff_ne] at h
    exact setVAndFlag_getV_of_ne h.1 h.2 _ _ s
  | drw x y n => exact State.getV_setV_ne _ _ _ _ (beq_eq_false_iff_ne.mp h)
  | loadRegs x => exact getV_loadRegs_of_gt (by simpa [writesReg] using h)
  | _ => rfl

theorem effect_pc_of_not_writesPc (h : writesPc i = false) : (effect i s).pc = s.pc := by
  cases i with
  | ret | jp | call | seByte | sneByte | seReg | sneReg | jpV0 | skp | sknp | ldVxK => cases h
  | _ => rfl

theorem effect_mem (hB : ∀ x, i ≠ .ldB x) (hStore : ∀ x, i ≠ .storeRegs x) : (effect i s).mem = s.mem := by
  cases i with
  | ldB x => exact absurd rfl (hB x)
  | storeRegs x => exact absurd rfl (hStore x)
  | _ => rfl

theorem effect_i (hLd : ∀ a, i ≠ .ldI a) (hAdd : ∀ x, i ≠ .addI x) (hF : ∀ x, i ≠ .ldF x) : (effect i s).i = s.i := by
  cases i with
  | ldI a => exact absurd rfl (hLd a)
  | addI x => exact absurd rfl (hAdd x)
  | ldF x => exact absurd rfl (hF x)
  | _ => rfl

theorem effect_stack (hCall : ∀ a, i ≠ .call a) (hRet : i ≠ .ret) : SameStack s (effect i s) := by
  cases i with
  | call a => exact absurd rfl (hCall a)
  | ret => exact absurd rfl hRet
  | _ => exact ⟨rfl, rfl⟩

theorem effect_dt (h : ∀ x, i ≠ .ldDtVx x) : (effect i s).dt = s.dt := by
  cases i with
  | ldDtVx x => exact absurd rfl (h x)
  | _ => rfl

theorem effect_st (h : ∀ x, i ≠ .ldStVx x) : (effect i s).st = s.st := by
  cases i with
  | ldStVx x => exact absurd rfl (h x)
  | _ => rfl

theorem effect_fb (hCls : i ≠ .cls) (hDrw : ∀ x y n, i ≠ .drw x y n) : (effect i s).fb = s.fb := by
  cases i with
  | cls => exact absurd rfl hCls
  | drw x y n => exact absurd rfl (hDrw x y n)
  | _ => rfl

theorem effect_key (i : Instr) (s : State) : (effect i s).key = s.key := by
  cases i <;> rfl

end Frame

end Machine

/-- Settles O54: an error writes no register, and an effect only those that writesReg lists. -/
theorem onlyDestinationsAreWritten : Obligations.OnlyDestinationsAreWritten := by
  intro i j s t h hw
  rcases exec_next_cases h with ⟨k, -, rfl⟩ | ⟨-, rfl⟩
  · rfl
  · exact getV_effect_of_not_writesReg hw

/-- Settles O55: an error leaves PC, and so does every effect that writesPc does not list. -/
theorem onlyControlTransfersMovePc : Obligations.OnlyControlTransfersMovePc := by
  intro i s t h hw
  rcases exec_next_cases h with ⟨k, -, rfl⟩ | ⟨-, rfl⟩
  · rfl
  · exact effect_pc_of_not_writesPc hw

/-- Settles O56: an error writes nothing, and each piece of an effect has the frame lemma above. -/
theorem eachPieceHasItsWriters : Obligations.EachPieceHasItsWriters := by
  intro i s t h
  rcases exec_next_cases h with ⟨k, -, rfl⟩ | ⟨-, rfl⟩
  · exact ⟨fun _ _ => rfl, fun _ _ _ => rfl, fun _ _ => ⟨rfl, rfl⟩, fun _ => rfl, fun _ => rfl, fun _ _ => rfl, rfl⟩
  · exact ⟨effect_mem, effect_i, effect_stack, effect_dt, effect_st, effect_fb, effect_key i s⟩

end Sys2Proof
end

section
/-! PROOFS. The step by its three outcomes (30_encoding.md R67, R69), the machine's invariant and the evenness of PC under every
step, and the invariant under every operation of the host. -/

namespace Sys2Proof

namespace Machine

/-! ### The step by its three outcomes -/

section Step

variable {s : State} {w : Word}

theorem step_of_fetch_error {k : ErrorKind} (hf : s.fetch = .error k) : step s = .next (s.setResult (.err k)) := by
  unfold step
  rw [hf]
  rfl

theorem step_of_decode_error {u : Unrecognized} (hf : s.fetch = .ok w) (hd : decode w = .error u) :
    step s = .next (s.advance.setResult (.unrecognized w)) := by
  unfold step
  simp only [hf, hd]
  rfl

theorem step_of_decode_ok {i : Instr} (hf : s.fetch = .ok w) (hd : decode w = .ok i) : step s = exec i s.advance := by
  unfold step
  simp only [hf, hd]

/-- The fetch below 0xFFF answers the word whose number the two bytes at PC give, the first the more significant (R43). -/
theorem State.fetch_eq_of_toNat (hpc : s.pc.toNat ≤ 0xFFE)
    (hw : w.toNat = 256 * (Memory.get s.mem s.pc.toNat).toNat + (Memory.get s.mem (s.pc.toNat + 1)).toNat) :
    s.fetch = .ok w := by
  rw [s.fetch_ok hpc, BitVec.eq_of_toNat_eq ((wordOfBytes_toNat _ _).trans hw.symm)]

/-- A write to PC changes no other piece of state, whatever is returned. -/
theorem sameButPc_setPc (a : Word) (r : StepResult) (s : State) : SameButPc s ((s.setPc a).setResult r) :=
  ⟨fun _ => rfl, rfl, ⟨rfl, rfl⟩, ⟨rfl, rfl⟩, fun _ => rfl, ⟨rfl, rfl⟩, rfl⟩

theorem exec_answers_next (i : Instr) (s : State) : ∃ t, exec i s = .next t := by
  rcases exec_cases i s with ⟨k, -, h⟩ | ⟨-, h⟩
  · exact ⟨_, h⟩
  · exact ⟨_, h⟩

end Step

end Machine

open Machine

/-- Settles O8: the two bytes at PC are the fetched word, and the step of a decoded word is exec. -/
theorem stepRunsDecodedInstruction : Obligations.StepRunsDecodedInstruction :=
  fun _ _ _ hpc hw hd => step_of_decode_ok (State.fetch_eq_of_toNat hpc hw) hd

/-- Settles O9: the two bytes at PC are the fetched word, and the step of a rejected word moves PC only. -/
theorem unrecognizedWordIsNoOp : Obligations.UnrecognizedWordIsNoOp := by
  intro s w u hpc hw hd
  exact ⟨_, step_of_decode_error (State.fetch_eq_of_toNat hpc hw) hd, rfl, sameButPc_setPc _ _ s, rfl⟩

/-- Settles O10: the fetch raises, and the step returns its error in the old state. -/
theorem fetchAboveMemoryRaises : Obligations.FetchAboveMemoryRaises :=
  fun s hpc => ⟨_, step_of_fetch_error (s.fetch_error hpc), rfl⟩

/-- Settles O11: each of the step's outcomes is a next state. -/
theorem everyStepAnswersNext : Obligations.EveryStepAnswersNext := by
  intro s
  rcases step_cases s with ⟨-, h⟩ | ⟨-, w, -, ⟨u, -, h⟩ | ⟨i, -, h⟩⟩
  · exact ⟨_, h⟩
  · exact ⟨_, h⟩
  · obtain ⟨t, ht⟩ := exec_answers_next i s.advance
    exact ⟨t, h.trans ht⟩

namespace Machine

/-! ### PC and the live return addresses after an effect -/

/-- Every live return address meets P (10_state.md R20). -/
def LiveEntries (P : Word → Prop) (s : State) : Prop := ∀ (k : Nat) (h : k < 16), k < s.sp.val → P (s.stack[k]'h)

section Effect

variable {P : Word → Prop} {i : Instr} {s : State}

/-- A return address that CALL adds is the PC it pushes (41_control_flow.md R75), and no other instruction adds one. -/
theorem liveEntries_effect (hlive : LiveEntries P s) (hpc : P s.pc) : LiveEntries P (effect i s) := by
  cases i with
  | call nnn =>
    intro k hk hlt
    have hlt : k < min (s.sp.val + 1) 16 := hlt
    show P ((s.stack.setIfInBounds s.sp.val s.pc)[k])
    rw [Vector.getElem_setIfInBounds]
    split_ifs with h
    · exact hpc
    · exact hlive k hk (by omega)
  | ret =>
    intro k hk hlt
    have hlt : k < s.sp.val - 1 := hlt
    exact hlive k hk (by omega)
  | _ => exact hlive

/-- Everything an effect can do to PC (10_state.md R17). -/
theorem effect_pc_cases (h : errorOf i s = none) :
    (effect i s).pc = s.pc ∨ (effect i s).pc = s.pc + 2#16 ∨ (effect i s).pc = s.pc - 2#16 ∨
    (∃ nnn, (i = .jp nnn ∨ i = .call nnn) ∧ (effect i s).pc = zext16 nnn) ∨
    (∃ nnn, i = .jpV0 nnn ∧ (effect i s).pc = zext16 nnn + wordOfByte (s.getV reg0)) ∨
    (∃ (k : Nat) (hk : k < 16), k < s.sp.val ∧ (effect i s).pc = s.stack[k]'hk) := by
  cases hw : writesPc i with
  | false => exact .inl (effect_pc_of_not_writesPc hw)
  | true =>
    have hskip : ∀ cond : Bool, (s.skipped cond).pc = s.pc ∨ (s.skipped cond).pc = s.pc + 2#16 := by
      intro cond
      cases cond
      · exact .inl rfl
      · exact .inr rfl
    cases i with
    | seByte | sneByte | seReg | sneReg | skp | sknp => exact (hskip _).imp_right .inl
    | jp nnn => exact .inr (.inr (.inr (.inl ⟨nnn, .inl rfl, rfl⟩)))
    | call nnn => exact .inr (.inr (.inr (.inl ⟨nnn, .inr rfl, rfl⟩)))
    | jpV0 nnn => exact .inr (.inr (.inr (.inr (.inl ⟨nnn, rfl, rfl⟩))))
    | ret =>
      simp only [errorOf, ite_eq_right_iff, reduceCtorEq, imp_false] at h
      exact .inr (.inr (.inr (.inr (.inr ⟨s.sp.val - 1, by have := s.sp_le; omega, by omega, rfl⟩))))
    | ldVxK x =>
      cases hk : s.firstKey with
      | none => exact .inr (.inr (.inl (congrArg State.pc (State.keyTaken_of_none x hk))))
      | some k => exact .inl ((congrArg State.pc (State.keyTaken_of_some x hk)).trans rfl)
    | _ => cases hw

/-- An effect keeps memory canonical: a store whose range is inside memory writes inside memory (20_memory.md R41). -/
theorem effect_mem_wf (h : errorOf i s = none) (hwf : Memory.wf s.mem) : Memory.wf (effect i s).mem := by
  cases i with
  | ldB x =>
    simp only [errorOf, ite_eq_right_iff, reduceCtorEq, imp_false] at h
    refine Memory.putBlock_wf _ _ _ hwf ?_
    simp only [bcdDigits, List.length_cons, List.length_nil, Config.memSize]
    omega
  | storeRegs x =>
    simp only [errorOf, ite_eq_right_iff, reduceCtorEq, imp_false] at h
    refine Memory.putBlock_wf _ _ _ hwf ?_
    rw [State.length_firstRegs s _ x.isLt]
    simp only [Config.memSize]
    omega
  | _ => exact hwf

end Effect

theorem zext16_toNat (nnn : Addr12) : (zext16 nnn).toNat = nnn.toNat := by
  rw [zext16, BitVec.toNat_setWidth]
  omega

theorem wordOfByte_toNat (b : Byte) : (wordOfByte b).toNat = b.toNat := by
  rw [wordOfByte, BitVec.toNat_setWidth]
  omega

/-- The target of JP V0 as a number: no wrap at 16 bits (10_state.md R19: at most 0x10FE). -/
theorem jpV0_target_toNat (nnn : Addr12) (b : Byte) : (zext16 nnn + wordOfByte b).toNat = nnn.toNat + b.toNat := by
  rw [BitVec.toNat_add, zext16_toNat, wordOfByte_toNat]
  omega

/-- The pre-increment as a number, where the fetch succeeds: no wrap at 16 bits (30_encoding.md R67). -/
theorem State.advance_pc_toNat {s : State} (hpc : s.pc.toNat ≤ 0xFFE) : s.advance.pc.toNat = s.pc.toNat + 2 := by
  rw [State.advance_pc, BitVec.toNat_add]
  simp only [BitVec.toNat_ofNat]
  omega

/-! ### The invariant -/

theorem errorOf_legal {i : Instr} {s : State} {k : ErrorKind} (h : errorOf i s = some k) : (StepResult.err k).legal := by
  cases i with
  | call | ret | drw | ldB | storeRegs | loadRegs =>
    simp only [errorOf, Option.ite_none_right_eq_some, Option.some.injEq] at h
    simp [StepResult.legal, ← h.2]
  | _ => cases h

theorem answer_legal (i : Instr) : (answer i).legal := by
  cases i <;> trivial

/-- A state whose memory, stack and PC meet the invariant meets it with any result a step can return. -/
theorem inv_setResult {s : State} {r : StepResult} (hmem : Memory.wf s.mem) (hlive : LiveEntries (·.toNat ≤ 0x1000) s)
    (hpc : s.pc.toNat ≤ 0x10FE) (hr : r.legal) : (s.setResult r).Inv :=
  ⟨hmem, hlive, hpc, hr⟩

/-- PC after an effect that starts where a fetch can leave it (R19). -/
theorem effect_pc_le {i : Instr} {s : State} (h : errorOf i s = none) (hlow : 2 ≤ s.pc.toNat) (hpc : s.pc.toNat ≤ 0x1000)
    (hlive : LiveEntries (·.toNat ≤ 0x1000) s) : (effect i s).pc.toNat ≤ 0x10FE := by
  rcases effect_pc_cases h with e | e | e | ⟨nnn, -, e⟩ | ⟨nnn, -, e⟩ | ⟨k, hk, hlt, e⟩ <;> rw [e]
  · omega
  · bv_omega
  · bv_omega
  · rw [zext16_toNat]; omega
  · rw [jpV0_target_toNat]; omega
  · exact (hlive k hk hlt).trans (by decide)

/-- An instruction that starts where a fetch can leave it keeps the invariant. -/
theorem exec_keeps_inv {i : Instr} {s t : State} (hinv : s.Inv) (hlow : 2 ≤ s.pc.toNat) (hpc : s.pc.toNat ≤ 0x1000)
    (h : exec i s = .next t) : t.Inv := by
  rcases exec_next_cases h with ⟨k, hk, rfl⟩ | ⟨hk, rfl⟩
  · exact inv_setResult hinv.memory hinv.stack hinv.pc (errorOf_legal hk)
  · exact inv_setResult (effect_mem_wf hk hinv.memory) (liveEntries_effect hinv.stack hpc)
      (effect_pc_le hk hlow hpc hinv.stack) (answer_legal i)

end Machine

/-- Settles O12, by the step's three outcomes: only a completed instruction changes more than PC and the result. -/
theorem everyStepKeepsInv : Obligations.EveryStepKeepsInv := by
  intro s t hinv h
  rcases step_cases s with ⟨-, hs⟩ | ⟨hpc, w, -, hs⟩
  · obtain rfl := Host.Outcome.next.inj (h.symm.trans hs)
    exact inv_setResult hinv.memory hinv.stack hinv.pc (.inr (.inr rfl))
  · have hadv := State.advance_pc_toNat hpc
    have hinv' : s.advance.Inv := ⟨hinv.memory, hinv.stack, by omega, hinv.result⟩
    rcases hs with ⟨u, -, hs⟩ | ⟨i, -, hs⟩
    · obtain rfl := Host.Outcome.next.inj (h.symm.trans hs)
      exact inv_setResult hinv'.memory hinv'.stack hinv'.pc trivial
    · exact exec_keeps_inv hinv' (by omega) (by omega) (hs.symm.trans h)

/-- Settles O13: nothing is listed in memory, nothing is on the stack, and PC is 0x200. -/
theorem creationMeetsInv : Obligations.CreationMeetsInv where
  memory := ⟨List.Pairwise.nil, nofun⟩
  stack := fun k _ hk => absurd hk (Nat.not_lt_zero k)
  pc := by decide
  result := trivial

namespace Machine

/-! ### The operations of the host -/

/-- Everything a load in a session can do (70_reset_and_hazards.md R139 to R141). -/
theorem Session.load_cases {c d : Session} {rom : List Byte} {r : Reply} (h : c.load rom = .next (d, r)) :
    d = c ∨ ∃ t, c.machine.loadRom rom = .ok t ∧ d = ⟨t, .loaded⟩ := by
  unfold Session.load at h
  cases hphase : c.phase <;> simp only [hphase] at h
  case fresh =>
    cases hload : c.machine.loadRom rom <;> simp only [hload] at h <;> cases h
    · exact .inl rfl
    · exact .inr ⟨_, rfl, rfl⟩
  all_goals cases h

/-- Everything a step in a session can do. -/
theorem Session.step_cases {c d : Session} {r : Reply} (h : c.step = .next (d, r)) :
    ∃ t, Machine.step c.machine = .next t ∧ d = ⟨t, .running⟩ ∧ r = .stepped t.lastResult := by
  unfold Session.step at h
  cases hstep : Machine.step c.machine <;> simp only [hstep] at h <;> cases h
  exact ⟨_, rfl, rfl, rfl⟩

theorem loadRom_keeps_inv {s t : State} {rom : List Byte} (hinv : s.Inv) (h : s.loadRom rom = .ok t) : t.Inv := by
  rw [State.loadRom_eq] at h
  split_ifs at h with hlen
  cases h
  have hfits : 0x200 + rom.length ≤ Config.memSize := by simp only [Config.memSize]; omega
  exact ⟨Memory.putBlock_wf _ _ _ hinv.memory hfits, hinv.stack, hinv.pc, hinv.result⟩

theorem setKey_keeps_inv {s : State} (hinv : s.Inv) (k : Nat) (b : Bool) : (s.setKey k b).Inv := by
  unfold State.setKey
  split_ifs
  · exact ⟨hinv.memory, hinv.stack, hinv.pc, hinv.result⟩
  · exact hinv

end Machine

/-- Settles O14, operation by operation: a load writes inside memory, a step is O12, the rest touch nothing the invariant reads. -/
theorem hostOperationsKeepInv : Obligations.HostOperationsKeepInv := by
  intro c d op r hinv h
  cases op with
  | load rom =>
    rcases Session.load_cases h with rfl | ⟨t, ht, rfl⟩
    · exact hinv
    · exact loadRom_keeps_inv hinv ht
  | step =>
    obtain ⟨t, ht, rfl, -⟩ := Session.step_cases h
    exact everyStepKeepsInv _ _ hinv ht
  | tick =>
    cases h
    exact ⟨hinv.memory, hinv.stack, hinv.pc, hinv.result⟩
  | setKey k b =>
    simp only [Session.apply] at h
    split_ifs at h
    cases h
    exact setKey_keeps_inv hinv k b
  | read =>
    cases h
    exact hinv

namespace Machine

/-! ### Even addresses (90_conflicts.md C2) -/

/-- PC after an effect with an even target. -/
theorem effect_pc_even {i : Instr} {s : State} (h : errorOf i s = none) (heven : EvenPc s) (htarget : EvenTarget i s) :
    (effect i s).pc.toNat % 2 = 0 := by
  obtain ⟨hpc, hlive⟩ := heven
  rcases effect_pc_cases h with e | e | e | ⟨nnn, rfl | rfl, e⟩ | ⟨nnn, rfl, e⟩ | ⟨k, hk, hlt, e⟩ <;> rw [e]
  · exact hpc
  · bv_omega
  · bv_omega
  · rw [zext16_toNat]; exact htarget
  · rw [zext16_toNat]; exact htarget
  · rw [jpV0_target_toNat]; exact htarget
  · exact hlive k hk hlt

theorem exec_keeps_even {i : Instr} {s t : State} (heven : EvenPc s) (htarget : EvenTarget i s) (h : exec i s = .next t) :
    EvenPc t := by
  rcases exec_next_cases h with ⟨k, -, rfl⟩ | ⟨hk, rfl⟩
  · exact heven
  · exact ⟨effect_pc_even hk heven htarget, liveEntries_effect (P := (·.toNat % 2 = 0)) heven.2 heven.1⟩

theorem evenTarget_advance {i : Instr} {s : State} (h : EvenTarget i s) : EvenTarget i s.advance := by
  cases i <;> exact h

end Machine

/-- Settles O15: the pre-increment keeps PC even, and so does the instruction when its target is even. -/
theorem evenTargetsKeepPcEven : Obligations.EvenTargetsKeepPcEven := by
  intro s t heven htarget h
  obtain ⟨hpc, hlive⟩ := heven
  have hadv : EvenPc s.advance := ⟨by rw [State.advance_pc]; bv_omega, hlive⟩
  rcases step_cases s with ⟨-, hs⟩ | ⟨-, w, hf, ⟨u, -, hs⟩ | ⟨i, hd, hs⟩⟩
  · obtain rfl := Host.Outcome.next.inj (h.symm.trans hs)
    exact ⟨hpc, hlive⟩
  · obtain rfl := Host.Outcome.next.inj (h.symm.trans hs)
    exact hadv
  · exact exec_keeps_even hadv (evenTarget_advance (htarget w i hf hd)) (hs.symm.trans h)

end Sys2Proof
end

section
/-! PROOFS. What no instruction can observe: the keypad, for an instruction that does not read it (10_state.md R25), the sound timer
(R24), and the stack entries at and above SP (R22). -/

namespace Sys2Proof

namespace Machine

/-- A block load into a state with the same registers gives the same registers. -/
theorem loadRegs_v_congr {x : Reg} {s t : State} (hv : t.v = s.v) (hbytes : t.bytesAtI (x.toNat + 1) = s.bytesAtI (x.toNat + 1)) :
    (effect (.loadRegs x) t).v = (effect (.loadRegs x) s).v := by
  show (t.setRegs 0 (t.bytesAtI (x.toNat + 1))).v = (s.setRegs 0 (s.bytesAtI (x.toNat + 1))).v
  rw [hbytes]
  exact State.setRegs_v_congr t s 0 _ hv

/-! ### The keypad -/

section Keys

variable {i : Instr} (s : State) (keys : Vector Bool 16)

theorem errorOf_withKeys : errorOf i { s with key := keys } = errorOf i s := by
  cases i <;> rfl

theorem effect_withKeys (h : readsKeys i = false) : effect i { s with key := keys } = { effect i s with key := keys } := by
  cases i with
  | skp | sknp | ldVxK => cases h
  | loadRegs x =>
    have hv := loadRegs_v_congr (x := x) (s := s) (t := { s with key := keys }) rfl rfl
    exact congrArg (fun v => { s with key := keys, v := v }) hv
  | _ => rfl

end Keys

end Machine

open Machine

/-- Settles O57: neither the error nor the effect of such an instruction reads the keypad. -/
theorem onlyKeyInstructionsReadKeys : Obligations.OnlyKeyInstructionsReadKeys := by
  intro i s t keys hreads h
  rcases exec_next_cases h with ⟨k, hk, rfl⟩ | ⟨hk, rfl⟩
  · exact exec_of_errorOf_some ((errorOf_withKeys s keys).trans hk)
  · rw [exec_of_errorOf_none ((errorOf_withKeys s keys).trans hk), effect_withKeys s keys hreads]
    rfl

namespace Machine

/-! ### Relations that a step keeps -/

/-- What two related states do is related: they fetch the same word and raise the same error, and the pre-increment, the result and
every effect keep the relation. -/
structure StepRespects (R : State → State → Prop) : Prop where
  fetch : ∀ {s s'}, R s s' → s'.fetch = s.fetch
  errorOf : ∀ {s s'} (i : Instr), R s s' → errorOf i s' = errorOf i s
  advance : ∀ {s s'}, R s s' → R s.advance s'.advance
  setResult : ∀ {s s'} (r : StepResult), R s s' → R (s.setResult r) (s'.setResult r)
  effect : ∀ {s s'} (i : Instr), R s s' → Machine.errorOf i s = none → R (effect i s) (effect i s')

section Respects

variable {R : State → State → Prop} {s s' t : State}

theorem StepRespects.exec (hR : StepRespects R) {i : Instr} (hs : R s s') (h : exec i s = .next t) :
    ∃ t', exec i s' = .next t' ∧ R t t' := by
  rcases exec_next_cases h with ⟨k, hk, rfl⟩ | ⟨hk, rfl⟩
  · exact ⟨_, exec_of_errorOf_some ((hR.errorOf i hs).trans hk), hR.setResult _ hs⟩
  · exact ⟨_, exec_of_errorOf_none ((hR.errorOf i hs).trans hk), hR.setResult _ (hR.effect i hs hk)⟩

theorem StepRespects.step (hR : StepRespects R) (hs : R s s') (h : step s = .next t) :
    ∃ t', step s' = .next t' ∧ R t t' := by
  have hfetch := hR.fetch hs
  rcases step_cases s with ⟨hpc, hstep⟩ | ⟨-, w, hf, ⟨u, hd, hstep⟩ | ⟨i, hd, hstep⟩⟩
  · obtain rfl := Host.Outcome.next.inj (h.symm.trans hstep)
    exact ⟨_, step_of_fetch_error (hfetch.trans (s.fetch_error hpc)), hR.setResult _ hs⟩
  · obtain rfl := Host.Outcome.next.inj (h.symm.trans hstep)
    exact ⟨_, step_of_decode_error (hfetch.trans hf) hd, hR.setResult _ (hR.advance hs)⟩
  · rw [step_of_decode_ok (hfetch.trans hf) hd]
    exact hR.exec (hR.advance hs) (hstep.symm.trans h)

end Respects

/-! ### The sound timer -/

/-- The states differ at most in ST. -/
def SameButSt (s s' : State) : Prop := ∃ b : Byte, s' = { s with st := b }

/-- An effect that starts with another ST ends with another ST at most: Fx18 replaces it, the rest keep it. -/
theorem effect_withSt (i : Instr) (s : State) (b : Byte) : SameButSt (effect i s) (effect i { s with st := b }) := by
  cases i with
  | ldStVx x => exact ⟨s.getV x, rfl⟩
  | loadRegs x =>
    have hv := loadRegs_v_congr (x := x) (s := s) (t := { s with st := b }) rfl rfl
    exact ⟨b, congrArg (fun v => { s with st := b, v := v }) hv⟩
  | _ => exact ⟨b, rfl⟩

theorem stepRespects_sameButSt : StepRespects SameButSt where
  fetch := by rintro s _ ⟨b, rfl⟩; rfl
  errorOf := by rintro s _ i ⟨b, rfl⟩; cases i <;> rfl
  advance := by rintro s _ ⟨b, rfl⟩; exact ⟨b, rfl⟩
  setResult := by rintro s _ r ⟨b, rfl⟩; exact ⟨b, rfl⟩
  effect := by rintro s _ i ⟨b, rfl⟩ -; exact effect_withSt i s b

/-! ### Stale stack entries -/

/-- The entries below SP agree. -/
def SameLive (s : State) (entries : Vector Word 16) : Prop :=
  ∀ (k : Nat) (h : k < 16), k < s.sp.val → entries[k]'h = s.stack[k]'h

/-- Effects other than CALL's and RET's carry the array along; CALL adds the same PC to both, and RET pops a live entry. -/
theorem effect_sameButStale {i : Instr} {s : State} {entries : Vector Word 16} (hlive : SameLive s entries)
    (h : errorOf i s = none) : SameButStale (effect i s) (effect i { s with stack := entries }) := by
  cases i with
  | call nnn =>
    refine ⟨rfl, fun k hk hlt => ?_⟩
    have hlt : k < min (s.sp.val + 1) 16 := hlt
    show (entries.setIfInBounds s.sp.val s.pc)[k] = (s.stack.setIfInBounds s.sp.val s.pc)[k]
    rw [Vector.getElem_setIfInBounds, Vector.getElem_setIfInBounds]
    split_ifs with he
    · rfl
    · exact hlive k hk (by omega)
  | ret =>
    simp only [errorOf, ite_eq_right_iff, reduceCtorEq, imp_false] at h
    have hsp := s.sp_le
    have htop := hlive (s.sp.val - 1) (by omega) (by omega)
    refine ⟨congrArg (fun a => { s.returned with stack := entries, pc := a }) htop, fun k hk hlt => ?_⟩
    have hlt : k < s.sp.val - 1 := hlt
    exact hlive k hk (by omega)
  | loadRegs x =>
    have hv := loadRegs_v_congr (x := x) (s := s) (t := { s with stack := entries }) rfl rfl
    exact ⟨congrArg (fun v => { s with stack := entries, v := v }) hv, hlive⟩
  | _ => exact ⟨rfl, hlive⟩

theorem sameButStale_iff {s s' : State} :
    SameButStale s s' ↔ ∃ entries : Vector Word 16, SameLive s entries ∧ s' = { s with stack := entries } := by
  constructor
  · rintro ⟨hs, hlive⟩
    exact ⟨s'.stack, hlive, hs⟩
  · rintro ⟨entries, hlive, rfl⟩
    exact ⟨rfl, hlive⟩

theorem stepRespects_sameButStale : StepRespects SameButStale where
  fetch hs := by obtain ⟨entries, -, rfl⟩ := sameButStale_iff.mp hs; rfl
  errorOf i hs := by obtain ⟨entries, -, rfl⟩ := sameButStale_iff.mp hs; cases i <;> rfl
  advance hs := by obtain ⟨entries, hlive, rfl⟩ := sameButStale_iff.mp hs; exact ⟨rfl, hlive⟩
  setResult r hs := by obtain ⟨entries, hlive, rfl⟩ := sameButStale_iff.mp hs; exact ⟨rfl, hlive⟩
  effect i hs h := by obtain ⟨entries, hlive, rfl⟩ := sameButStale_iff.mp hs; exact effect_sameButStale hlive h

end Machine

/-- Settles O58: a step keeps "differ in ST at most". -/
theorem soundTimerIsUnobservable : Obligations.SoundTimerIsUnobservable := by
  intro s t b h
  obtain ⟨_, hstep, c, rfl⟩ := stepRespects_sameButSt.step ⟨b, rfl⟩ h
  exact ⟨c, hstep⟩

/-- Settles O59: a step keeps "differ in stale entries at most". -/
theorem staleStackEntriesAreUnobservable : Obligations.StaleStackEntriesAreUnobservable :=
  fun _ _ _ hs h => stepRespects_sameButStale.step hs h

end Sys2Proof
end

section
/-! PROOFS. The state at creation (10_state.md R29, 20_memory.md R34, R36), and the canonical form of memory as a normal form. -/

namespace Sys2Proof

namespace Machine

/-- Memory at creation is 0 outside the font (R34). -/
theorem Memory.initialByte_outside {a : Nat} (h : a < 0x050 ∨ 0x0A0 ≤ a) : Memory.initialByte a = 0x00#8 := by
  unfold Memory.initialByte
  rw [if_neg]
  simp only [Config.fontBase, Config.fontGlyphs, Config.glyphBytes]
  omega

theorem getV_reset (x : Reg) : State.reset.getV x = 0x00#8 := by
  simp [State.getV, State.reset]

end Machine

open Machine

/-- Settles O16: no entry of memory is listed, and every other field is a zero. -/
theorem creationState : Obligations.CreationState :=
  ⟨rfl, fun _ ha => Memory.initialByte_outside ha, getV_reset, rfl, rfl, fun _ _ => by simp [State.reset], rfl, rfl,
    fun _ _ => by simp [State.reset], Framebuffer.get_clear⟩

/-- Settles O17: eighty closed reads. -/
theorem fontBytesAtCreation : Obligations.FontBytesAtCreation := by
  unfold Obligations.FontBytesAtCreation
  decide

namespace Machine

/-! ### The canonical form -/

section Canonical

variable {c : Host.Cell} {m : Memory} {a : Nat}

theorem Memory.get_cons_self : Memory.get (c :: m) c.1 = c.2 := if_pos rfl

theorem Memory.get_cons_ne (h : c.1 ≠ a) : Memory.get (c :: m) a = Memory.get m a := if_neg h

theorem Memory.wf_tail (h : Memory.wf (c :: m)) : Memory.wf m :=
  ⟨(List.pairwise_cons.mp h.1).2, fun d hd => h.2 d (List.mem_cons_of_mem c hd)⟩

/-- In canonical memory an address below the first listed one is unlisted. -/
theorem Memory.get_cons_of_lt (h : Memory.wf (c :: m)) (ha : a < c.1) : Memory.get (c :: m) a = Memory.initialByte a := by
  refine Memory.get_of_below _ _ fun d hd => ?_
  rcases List.mem_cons.mp hd with rfl | hd
  · exact ha
  · exact ha.trans ((List.pairwise_cons.mp h.1).1 d hd)

/-- In canonical memory the first listed address is not listed again. -/
theorem Memory.get_tail_head (h : Memory.wf (c :: m)) : Memory.get m c.1 = Memory.initialByte c.1 :=
  Memory.get_of_below _ _ (List.pairwise_cons.mp h.1).1

/-- The first entry of canonical memory is in the address space and differs from the creation contents. -/
theorem Memory.head_of_wf (h : Memory.wf (c :: m)) : c.1 ≤ 0xFFF ∧ c.2 ≠ Memory.initialByte c.1 := h.2 c List.mem_cons_self

/-- Where canonical memory lists an address, another that reads alike cannot begin above it. -/
theorem Memory.not_lt_of_get_eq {d : Host.Cell} {m' : Memory} (h : Memory.wf (c :: m)) (h' : Memory.wf (d :: m'))
    (heq : Memory.get (c :: m) c.1 = Memory.get (d :: m') c.1) : ¬c.1 < d.1 := by
  intro hlt
  rw [Memory.get_cons_self, Memory.get_cons_of_lt h' hlt] at heq
  exact (Memory.head_of_wf h).2 heq

/-- Canonical memory that reads as at creation lists nothing. -/
theorem Memory.eq_nil_of_get_eq (h : Memory.wf m) (heq : ∀ a, a ≤ 0xFFF → Memory.get m a = Memory.initialByte a) : m = [] := by
  cases m with
  | nil => rfl
  | cons c m =>
    obtain ⟨hc, hne⟩ := Memory.head_of_wf h
    exact absurd (Memory.get_cons_self.symm.trans (heq c.1 hc)) hne

end Canonical

end Machine

/-- Settles O18, by induction on the two lists: their first entries are at the same address, where neither tail lists anything. -/
theorem canonicalMemoriesAreEqual : Obligations.CanonicalMemoriesAreEqual := by
  intro m
  induction m with
  | nil => exact fun m' _ hm' heq => (Memory.eq_nil_of_get_eq hm' fun a ha => (heq a ha).symm).symm
  | cons c m ih =>
    intro m' hm hm' heq
    cases m' with
    | nil => exact Memory.eq_nil_of_get_eq hm heq
    | cons d m' =>
      obtain ⟨hc, -⟩ := Memory.head_of_wf hm
      obtain ⟨hd, -⟩ := Memory.head_of_wf hm'
      have haddr : c.1 = d.1 := by
        have h1 := Memory.not_lt_of_get_eq hm hm' (heq c.1 hc)
        have h2 := Memory.not_lt_of_get_eq hm' hm (heq d.1 hd).symm
        omega
      have hbyte : c.2 = d.2 := by
        have h := heq c.1 hc
        rwa [Memory.get_cons_self, haddr, Memory.get_cons_self] at h
      have htail : ∀ a, a ≤ 0xFFF → Memory.get m a = Memory.get m' a := by
        intro a ha
        by_cases hca : c.1 = a
        · subst hca
          rw [Memory.get_tail_head hm, haddr, Memory.get_tail_head hm']
        · rw [← Memory.get_cons_ne hca, heq a ha, Memory.get_cons_ne (haddr ▸ hca)]
      rw [Prod.ext haddr hbyte, ih m' (Memory.wf_tail hm) (Memory.wf_tail hm') htail]

end Sys2Proof
end

section
/-! PROOFS. The control flow instructions (41_control_flow.md R73 to R81): jumps, calls and returns, the call stack as a whole, and
the skips. -/

namespace Sys2Proof

open Machine

/-- Settles O20: the class runs as the no-op of R69, with its operand as the word. -/
theorem sysIsNoOp : Obligations.SysIsNoOp :=
  fun nnn s => ⟨_, rfl, rfl, sameButPc_setPc s.pc _ s, zext16 nnn, zext16_toNat nnn, rfl⟩

/-- Settles O21: each jump is one write of PC, whose target never wraps. -/
theorem jumpsGoToTheirTarget : Obligations.JumpsGoToTheirTarget := fun nnn s =>
  ⟨⟨_, rfl, zext16_toNat nnn, sameButPc_setPc _ _ s, rfl⟩,
    ⟨_, rfl, jpV0_target_toNat nnn (s.getV reg0), sameButPc_setPc _ _ s, rfl⟩⟩

/-- Settles O24: at its end of the stack each raises, which records the error in the old state. -/
theorem stackErrorsAtItsEnds : Obligations.StackErrorsAtItsEnds :=
  ⟨fun _ _ h => ⟨_, exec_of_errorOf_some (if_pos h), rfl⟩, fun _ h => ⟨_, exec_of_errorOf_some (if_pos h), rfl⟩⟩

/-- CALL writes PC and the call stack only (10_state.md R21). -/
theorem Machine.sameButPcAndStack_called (a : Word) (r : StepResult) (s : State) :
    SameButPcAndStack s ((s.called a).setResult r) :=
  ⟨fun _ => rfl, rfl, ⟨rfl, rfl⟩, fun _ => rfl, ⟨rfl, rfl⟩, rfl⟩

/-- RET writes PC and the call stack only (R22). -/
theorem Machine.sameButPcAndStack_returned (r : StepResult) (s : State) : SameButPcAndStack s (s.returned.setResult r) :=
  ⟨fun _ => rfl, rfl, ⟨rfl, rfl⟩, fun _ => rfl, ⟨rfl, rfl⟩, rfl⟩

/-- Settles O22: below depth 16 the call has its effect, which stores PC at the old depth. -/
theorem callPushesReturnAddress : Obligations.CallPushesReturnAddress := by
  intro nnn s hsp
  refine ⟨_, exec_of_errorOf_none (if_neg (Nat.ne_of_lt hsp)), zext16_toNat nnn, Nat.min_eq_left hsp, fun k hk => ?_,
    sameButPcAndStack_called _ .ok s, rfl⟩
  show (s.stack.setIfInBounds s.sp.val s.pc)[k] = _
  rw [Vector.getElem_setIfInBounds]
  simp only [eq_comm]

/-- Settles O23: above depth 0 the return has its effect, which reads the entry below the old depth. -/
theorem returnPopsReturnAddress : Obligations.ReturnPopsReturnAddress := by
  intro s k hk hsp
  have htop : s.sp.val - 1 = k := by omega
  refine ⟨_, exec_of_errorOf_none (if_neg (by omega)), ?_, htop, rfl,
    sameButPcAndStack_returned .ok s, rfl⟩
  show s.stack[s.sp.val - 1] = s.stack[k]
  simp only [htop]

namespace Machine

/-! ### The call stack as a whole (10_state.md R20 to R22) -/

/-- Pushing addresses that fit puts them on top of the entries that were there, in order. -/
theorem pushAll_ok (s : State) (as : List Word) (h : s.sp.val + as.length ≤ 16) :
    ∃ t, pushAll s as = .ok t ∧ t.sp.val = s.sp.val + as.length ∧
      (∀ (k : Nat) (hk : k < 16), k < s.sp.val → t.stack[k]'hk = s.stack[k]'hk) ∧
      ∀ (j : Nat) (hj : j < as.length) (hk : s.sp.val + j < 16), t.stack[s.sp.val + j]'hk = as[j] := by
  induction as generalizing s with
  | nil => exact ⟨s, rfl, rfl, fun _ _ _ => rfl, nofun⟩
  | cons a as ih =>
    simp only [List.length_cons] at h ⊢
    have hsp : s.sp.val < 16 := by omega
    obtain ⟨t, ht, hdepth, hbelow, habove⟩ :=
      ih { s with stack := s.stack.set s.sp.val a hsp, sp := ⟨s.sp.val + 1, Nat.succ_lt_succ hsp⟩ } (by simp only; omega)
    simp only at hdepth hbelow habove
    refine ⟨t, ?_, by omega, fun k hk hlt => ?_, fun j hj hk => ?_⟩
    · simp only [pushAll, s.push_ok a hsp, ht]
    · rw [hbelow k hk (by omega), Vector.getElem_set_ne _ _ (by omega)]
    · cases j with
      | zero =>
        rw [List.getElem_cons_zero]
        exact (hbelow s.sp.val hsp (by omega)).trans (Vector.getElem_set_self ..)
      | succ j =>
        have hj' : s.sp.val + (j + 1) = s.sp.val + 1 + j := by omega
        simp only [hj', List.getElem_cons_succ]
        exact habove j (by omega) (by omega)

/-- Popping as many addresses as the stack holds answers its entries from the top down. -/
theorem popAll_ok (s : State) (n : Nat) (h : n ≤ s.sp.val) :
    ∃ (as : List Word) (u : State), popAll s n = .ok (as, u) ∧ u.sp.val = s.sp.val - n ∧ as.length = n ∧
      ∀ (j : Nat) (hj : j < as.length) (hk : s.sp.val - 1 - j < 16), as[j] = s.stack[s.sp.val - 1 - j]'hk := by
  induction n generalizing s with
  | zero => exact ⟨[], s, rfl, rfl, rfl, nofun⟩
  | succ n ih =>
    have hsp : 0 < s.sp.val := by omega
    obtain ⟨as, u, hu, hdepth, hlen, hentry⟩ := ih { s with sp := ⟨s.sp.val - 1, by omega⟩ } (by simp only; omega)
    simp only at hdepth hentry
    refine ⟨s.stack[s.sp.val - 1] :: as, u, ?_, by omega, by simp [hlen], fun j hj hk => ?_⟩
    · simp only [popAll, s.pop_ok hsp, hu]
    · cases j with
      | zero => rfl
      | succ j =>
        have hj' : s.sp.val - 1 - (j + 1) = s.sp.val - 1 - 1 - j := by omega
        simp only [hj', List.getElem_cons_succ]
        exact hentry j (by simpa using hj) (by omega)

end Machine

/-- Settles O25: the pops read from the top down what the pushes wrote from the bottom up. -/
theorem stackIsLastInFirstOut : Obligations.StackIsLastInFirstOut := by
  intro s as h
  obtain ⟨t, ht, hdepth, -, hpushed⟩ := pushAll_ok s as h
  obtain ⟨popped, u, hu, hdepth', hlen, hpopped⟩ := popAll_ok t as.length (by omega)
  have hrev : popped = as.reverse := by
    refine List.ext_getElem (by simp [hlen]) fun j hj hj' => ?_
    have hj : j < as.length := by omega
    have hk : t.sp.val - 1 - j = s.sp.val + (as.length - 1 - j) := by omega
    rw [hpopped j _ (by omega), List.getElem_reverse]
    simp only [hk]
    exact hpushed (as.length - 1 - j) (by omega) (by omega)
  exact ⟨t, u, ht, hdepth, hrev ▸ hu, Fin.ext (by omega)⟩

namespace Machine

/-! ### The skips (R77) -/

section Skip

variable {s : State} {cond : Bool} {p : Prop} [Decidable p]

/-- A skip on a condition that says p: PC is two further on where p holds. -/
theorem skipIf_result (h : cond = true ↔ p) :
    ∃ t, s.skipIf cond = .next t ∧ t.pc = (if p then s.pc + 2#16 else s.pc) ∧ SameButPc s t ∧ t.lastResult = .ok := by
  refine ⟨_, s.skipIf_eq cond, ?_, sameButPc_setPc _ _ s, rfl⟩
  simp only [State.setResult_pc, State.setPc_pc, h]

/-- A skip on a condition that says not p: PC is two further on where p fails. -/
theorem skipIf_not_result (h : cond = true ↔ ¬p) :
    ∃ t, s.skipIf cond = .next t ∧ t.pc = (if p then s.pc else s.pc + 2#16) ∧ SameButPc s t ∧ t.lastResult = .ok := by
  rw [← ite_not]
  exact skipIf_result h

end Skip

theorem byte_beq_iff (a b : Byte) : (a == b) = true ↔ a.toNat = b.toNat := by
  rw [beq_iff_eq, BitVec.toNat_inj]

theorem byte_bne_iff (a b : Byte) : (a != b) = true ↔ ¬a.toNat = b.toNat := by
  rw [bne_iff_ne, Ne, BitVec.toNat_inj]

end Machine

/-- Settles O26: each is a skip on the comparison of two bytes. -/
theorem byteSkips : Obligations.ByteSkips := fun x kk s =>
  ⟨skipIf_result (byte_beq_iff (s.getV x) kk), skipIf_not_result (byte_bne_iff (s.getV x) kk)⟩

/-- Settles O27: each is a skip on the comparison of two registers. -/
theorem registerSkips : Obligations.RegisterSkips := fun x y _ s =>
  ⟨skipIf_result (byte_beq_iff (s.getV x) (s.getV y)), skipIf_not_result (byte_bne_iff (s.getV x) (s.getV y))⟩

end Sys2Proof
end

section
/-! PROOFS. The instructions that write a register, with or without a flag, I or a timer (42_alu.md R86 to R95, 43_index_memory.md R96
and R97, 45_keys_timers.md R111 to R113): one result lemma per kind of write, and the values written as numbers. -/

namespace Sys2Proof

namespace Machine

/-! ### A result and a flag written -/

/-- An instruction that writes a result to Vx, then a flag to VF, and completes, with everything it leaves unchanged (10_state.md
R14). -/
theorem done_setVAndFlag_result (x : Reg) (result flag : Byte) (s : State) :
    ∃ t, (s.setVAndFlag x result flag).done = .next t ∧ (x ≠ regF → t.getV x = result) ∧ t.getV regF = flag ∧
      (∀ j : Reg, j ≠ x → j ≠ regF → t.getV j = s.getV j) ∧ SameButRegs s t ∧ t.lastResult = .ok := by
  refine ⟨(s.setVAndFlag x result flag).setResult .ok, rfl, fun hx => ?_, State.getV_setV_self _ regF flag,
    fun j hx hF => setVAndFlag_getV_of_ne hx hF result flag s,
    ⟨rfl, rfl, ⟨rfl, rfl⟩, ⟨rfl, rfl⟩, fun _ => rfl, ⟨rfl, rfl⟩, rfl⟩, rfl⟩
  rw [State.getV_setResult, State.setVAndFlag, State.getV_setV_ne _ _ _ _ hx, State.getV_setV_self]

/-- Writes to the timers change no other piece of state, whatever is returned (10_state.md R23). -/
theorem sameButTimers_set (a b : Byte) (r : StepResult) (s : State) :
    SameButTimers s (((s.setDt a).setSt b).setResult r) :=
  ⟨fun _ => rfl, rfl, rfl, ⟨rfl, rfl⟩, fun _ => rfl, ⟨rfl, rfl⟩, rfl⟩

/-! ### Results and flags as numbers (R90 to R94) -/

theorem bool01_toNat (p : Prop) [Decidable p] : (bool01 (decide p)).toNat = if p then 1 else 0 := by
  unfold bool01
  by_cases h : p <;> simp [h]

theorem carryFlag_toNat (a b : Byte) : (carryFlag a b).toNat = if a.toNat + b.toNat > 255 then 1 else 0 := bool01_toNat _

theorem noBorrowFlag_toNat (a b : Byte) : (noBorrowFlag a b).toNat = if a.toNat > b.toNat then 1 else 0 := bool01_toNat _

theorem byte_sub_toNat (a b : Byte) : (a - b).toNat = (256 + a.toNat - b.toNat) % 256 := by
  rw [BitVec.toNat_sub]
  omega

theorem shrFlag_toNat (a : Byte) : (shrFlag a).toNat = a.toNat % 2 := by
  rw [shrFlag, BitVec.toNat_and]
  exact Nat.and_one_is_mod _

theorem shlFlag_toNat (a : Byte) : (shlFlag a).toNat = a.toNat / 128 := by
  rw [shlFlag, BitVec.toNat_and, BitVec.toNat_ushiftRight, Nat.shiftRight_eq_div_pow]
  refine (Nat.and_one_is_mod _).trans ?_
  omega

theorem byte_shr_toNat (a : Byte) : (a >>> 1).toNat = a.toNat / 2 := by
  rw [BitVec.toNat_ushiftRight, Nat.shiftRight_eq_div_pow]

theorem byte_shl_toNat (a : Byte) : (a <<< 1).toNat = 2 * a.toNat % 256 := by
  rw [BitVec.toNat_shiftLeft, Nat.shiftLeft_eq]
  omega

/-- The same, of any instruction that does so, with the result and the flag as numbers. -/
theorem flagWriter_result {i : Instr} {s : State} {x : Reg} {result flag : Byte} {n f : Nat}
    (he : exec i s = (s.setVAndFlag x result flag).done) (hn : result.toNat = n) (hf : flag.toNat = f) :
    ∃ t, exec i s = .next t ∧ (x ≠ 0xF#4 → (t.getV x).toNat = n) ∧ (t.getV 0xF#4).toNat = f ∧
      (∀ j : Reg, j ≠ x → j ≠ 0xF#4 → t.getV j = s.getV j) ∧ SameButRegs s t ∧ t.lastResult = .ok := by
  obtain ⟨t, ht, hx, hF, hframe⟩ := done_setVAndFlag_result x result flag s
  exact ⟨t, he.trans ht, fun h => (congrArg BitVec.toNat (hx h)).trans hn, (congrArg BitVec.toNat hF).trans hf, hframe⟩

/-- An instruction that writes a result to Vx and completes, with the result as a number. -/
theorem regWriter_result {i : Instr} {s : State} {x : Reg} {result : Byte} {n : Nat} (he : exec i s = (s.setV x result).done)
    (hn : result.toNat = n) :
    ∃ t, exec i s = .next t ∧ (t.getV x).toNat = n ∧ SameRegsBut x s t ∧ SameButRegs s t ∧ t.lastResult = .ok := by
  obtain ⟨t, ht, hx, hframe⟩ := done_setV_result x result s
  exact ⟨t, he.trans ht, (congrArg BitVec.toNat hx).trans hn, hframe⟩

end Machine

open Machine

/-- Settles O30: each is one register write. -/
theorem copyAndLogicResults : Obligations.CopyAndLogicResults := fun x y s =>
  ⟨done_setV_result x (s.getV y) s, regWriter_result rfl (BitVec.toNat_or ..), regWriter_result rfl (BitVec.toNat_and ..),
    regWriter_result rfl (BitVec.toNat_xor ..)⟩

/-- Settles O31: the sum and the carry, each as a number. -/
theorem addWithCarryResult : Obligations.AddWithCarryResult := fun x y s =>
  flagWriter_result rfl (BitVec.toNat_add ..) (carryFlag_toNat (s.getV x) (s.getV y))

/-- Settles O32: the differences and the no-borrow flags, each as a number. -/
theorem subtractResults : Obligations.SubtractResults := fun x y s =>
  ⟨flagWriter_result rfl (byte_sub_toNat (s.getV x) (s.getV y)) (noBorrowFlag_toNat (s.getV x) (s.getV y)),
    flagWriter_result rfl (byte_sub_toNat (s.getV y) (s.getV x)) (noBorrowFlag_toNat (s.getV y) (s.getV x))⟩

/-- Settles O33: the shifted bytes and the bits shifted out, each as a number. -/
theorem shiftResults : Obligations.ShiftResults := fun x _ s =>
  ⟨flagWriter_result rfl (byte_shr_toNat (s.getV x)) (shrFlag_toNat (s.getV x)),
    flagWriter_result rfl (byte_shl_toNat (s.getV x)) (shlFlag_toNat (s.getV x))⟩

/-- Settles O34: one register write, of the draw masked, in the state that has counted the draw. -/
theorem randomResult : Obligations.RandomResult := by
  intro x kk s
  have hx := State.getV_setV_self s.randomByte.2 x (s.randomByte.1 &&& kk)
  refine ⟨(s.randomByte.2.setV x (s.randomByte.1 &&& kk)).setResult .ok, rfl, hx, ?_, rfl, sameRegsBut_setV x _ s.randomByte.2, rfl,
    rfl, ⟨rfl, rfl⟩, ⟨rfl, rfl⟩, fun _ => rfl, ⟨rfl, rfl⟩, rfl⟩
  rw [State.getV_setResult, hx, BitVec.and_assoc, BitVec.and_not_self]
  exact BitVec.and_zero

/-- Settles O35: each is one write of I. -/
theorem indexLoadAndAddResults : Obligations.IndexLoadAndAddResults := by
  refine ⟨fun nnn s => ?_, fun x s => ?_⟩
  · obtain ⟨t, ht, hi, hframe⟩ := done_setI_result (zext16 nnn) s
    exact ⟨t, ht, hi ▸ zext16_toNat nnn, hframe⟩
  · obtain ⟨t, ht, hi, hframe⟩ := done_setI_result (s.i + wordOfByte (s.getV x)) s
    exact ⟨t, ht, by rw [hi, BitVec.toNat_add, wordOfByte_toNat], hframe⟩

/-- Settles O47: one register write, and one write of each timer. -/
theorem timerInstructionResults : Obligations.TimerInstructionResults := fun x s =>
  ⟨done_setV_result x s.dt s, ⟨_, rfl, rfl, rfl, sameButTimers_set (s.getV x) s.st .ok s, rfl⟩,
    ⟨_, rfl, rfl, rfl, sameButTimers_set s.dt (s.getV x) .ok s, rfl⟩⟩

end Sys2Proof
end

section
/-! PROOFS. The memory instructions at I (43_index_memory.md R99 to R101): the block stored, the block loaded, and one after the
other; the fetch of stored bytes (20_memory.md R50). -/

namespace Sys2Proof

namespace Machine

section Store

variable {s : State} {bs : List Byte}

/-- A block stored inside memory reads as written at I on. -/
theorem get_storedAtI (hwf : Memory.wf s.mem) (hfits : s.i.toNat + bs.length ≤ Config.memSize) {k : Nat} (hk : k < bs.length) :
    Memory.get (s.storedAtI bs).mem (s.i.toNat + k) = bs[k] :=
  Memory.get_putBlock_inside s.mem s.i.toNat k bs hwf hfits hk

/-- A block stored at I leaves the rest of memory alone. -/
theorem sameMemoryOutside_storedAtI (s : State) (bs : List Byte) (r : StepResult) :
    SameMemoryOutside s.i.toNat bs.length s ((s.storedAtI bs).setResult r) :=
  fun b hb => Memory.get_putBlock_outside s.mem s.i.toNat b bs hb

/-- A block stored at I changes memory only. -/
theorem sameButMemory_storedAtI (s : State) (bs : List Byte) (r : StepResult) :
    SameButMemory s ((s.storedAtI bs).setResult r) :=
  sameButMemory_setMem (s.storedAtI bs).mem s

/-- The first registers stored: V[k] stands at I + k (R100). -/
theorem get_storedAtI_firstRegs {x : Reg} (hwf : Memory.wf s.mem) (hfits : s.i.toNat + x.toNat ≤ 0xFFF) {k : Reg}
    (hk : k.toNat ≤ x.toNat) :
    Memory.get (s.storedAtI (s.firstRegs (x.toNat + 1))).mem (s.i.toNat + k.toNat) = s.getV k := by
  have hlen := s.length_firstRegs (x.toNat + 1) x.isLt
  rw [get_storedAtI hwf (by simp only [hlen, Config.memSize]; omega) (by omega), State.getElem_firstRegs]

end Store

/-- The hundreds, tens and ones as numbers (R99). -/
theorem bcdDigits_toNat (b : Byte) :
    ((bcdDigits b)[0]'(Nat.succ_pos 2)).toNat = b.toNat / 100 ∧
    ((bcdDigits b)[1]'(Nat.succ_lt_succ (Nat.succ_pos 1))).toNat = b.toNat / 10 % 10 ∧
    ((bcdDigits b)[2]'(Nat.lt_succ_self 2)).toNat = b.toNat % 10 := by
  simp only [bcdDigits, List.getElem_cons_zero, List.getElem_cons_succ, BitVec.toNat_ofNat]
  omega

/-- The block loaded: V[k] is the byte at I + k for k up to x, and every other register is kept (R101). -/
theorem getV_loadRegs (x k : Reg) (s : State) :
    (effect (.loadRegs x) s).getV k = if k.toNat ≤ x.toNat then Memory.get s.mem (s.i.toNat + k.toNat) else s.getV k := by
  split_ifs with hk
  · have hlen : (s.bytesAtI (x.toNat + 1)).length = x.toNat + 1 := by simp [State.bytesAtI]
    have hx := x.isLt
    rw [effect_loadRegs, State.getV_setRegs _ _ _ _ (by omega), dif_pos (by omega)]
    simp [State.bytesAtI]
  · exact getV_loadRegs_of_gt (by omega)

end Machine

open Machine

/-- Settles O37: the three digits are one block stored at I, or the range check raises. -/
theorem decimalDigitsStored : Obligations.DecimalDigitsStored := by
  intro x s hwf
  constructor
  · intro hfits
    have hget : ∀ {k : Nat} (hk : k < 3),
        Memory.get (s.storedAtI (bcdDigits (s.getV x))).mem (s.i.toNat + k) = (bcdDigits (s.getV x))[k] :=
      fun hk => get_storedAtI hwf (by show s.i.toNat + 3 ≤ 4096; omega) hk
    obtain ⟨hundreds, tens, ones⟩ := bcdDigits_toNat (s.getV x)
    exact ⟨_, exec_of_errorOf_none (if_neg (by omega)), (congrArg BitVec.toNat (hget (k := 0) (by decide))).trans hundreds,
      (congrArg BitVec.toNat (hget (k := 1) (by decide))).trans tens,
      (congrArg BitVec.toNat (hget (k := 2) (by decide))).trans ones,
      sameMemoryOutside_storedAtI s (bcdDigits (s.getV x)) .ok, sameButMemory_storedAtI s _ .ok, rfl⟩
  · exact fun hrange => ⟨_, exec_of_errorOf_some (if_pos hrange), rfl⟩

/-- Settles O38: the registers are one block stored at I, or the range check raises. -/
theorem registersStored : Obligations.RegistersStored := by
  intro x s hwf
  constructor
  · intro hfits
    have hout := sameMemoryOutside_storedAtI s (s.firstRegs (x.toNat + 1)) .ok
    rw [s.length_firstRegs _ x.isLt] at hout
    exact ⟨_, exec_of_errorOf_none (if_neg (by omega)), fun k hk => get_storedAtI_firstRegs hwf hfits hk, hout,
      sameButMemory_storedAtI s _ .ok, rfl⟩
  · exact fun hrange => ⟨_, exec_of_errorOf_some (if_pos hrange), rfl⟩

/-- Settles O39: the registers are one block loaded from I, or the range check raises. -/
theorem registersLoaded : Obligations.RegistersLoaded := by
  intro x s
  constructor
  · intro hfits
    exact ⟨_, exec_of_errorOf_none (if_neg (by omega)), fun k hk => (getV_loadRegs x k s).trans (if_pos hk),
      fun k hk => (getV_loadRegs x k s).trans (if_neg (by omega)),
      ⟨rfl, rfl, ⟨rfl, rfl⟩, ⟨rfl, rfl⟩, fun _ => rfl, ⟨rfl, rfl⟩, rfl⟩, rfl⟩
  · exact fun hrange => ⟨_, exec_of_errorOf_some (if_pos hrange), rfl⟩

/-- Settles O40: the load reads at I what the store left there, whatever the registers hold in between. -/
theorem storeThenLoadRestoresRegisters : Obligations.StoreThenLoadRestoresRegisters := by
  intro x s regs hwf hfits
  refine ⟨_, _, exec_of_errorOf_none (if_neg (by omega)), exec_of_errorOf_none (if_neg ?_), fun k hk => ?_⟩
  · show ¬s.i.toNat + x.toNat > 0xFFF
    omega
  · exact (getV_loadRegs x k _).trans ((if_pos hk).trans (get_storedAtI_firstRegs hwf hfits hk))

/-- Settles O19: the fetch at I reads V0 and V1 where the store left them. -/
theorem fetchSeesStoredBytes : Obligations.FetchSeesStoredBytes := by
  intro x s hwf hx hfits
  obtain ⟨t, ht, hstored, -⟩ := (registersStored x s hwf).1 hfits
  have h0 : Memory.get t.mem s.i.toNat = s.getV 0x0#4 := hstored 0x0#4 (Nat.zero_le _)
  have h1 : Memory.get t.mem (s.i.toNat + 1) = s.getV 0x1#4 := hstored 0x1#4 hx
  refine ⟨t, _, ht, State.fetch_ok _ (by rw [State.setPc_pc]; omega), ?_⟩
  simp only [wordOfBytes_toNat, State.setPc_pc, State.setPc_mem, h0, h1]

end Sys2Proof
end

section
/-! PROOFS. The display instructions (44_display.md R103 to R106): the clear screen, one draw as an inversion of the pixels under the
sprite, and two draws at one origin. -/

namespace Sys2Proof

open Machine

/-- Settles O41: the word by its encoding, and the effect by the reads of the clear framebuffer. -/
theorem clearScreenResult : Obligations.ClearScreenResult :=
  ⟨decode_eq_cls_iff, fun _ => ⟨_, rfl, fun c r _ _ => Framebuffer.get_clear c r, fun _ => rfl,
    ⟨rfl, rfl, ⟨rfl, rfl⟩, ⟨rfl, rfl⟩, fun _ => rfl, rfl, rfl⟩, rfl⟩⟩

namespace Machine

/-! ### One draw -/

section Draw

variable (x y : Reg) (n : Nibble) (s : State)

/-- The bits that the loop draws are the sprite's (R104). -/
theorem spriteBits_eq_spriteAt :
    spriteBits (originColumn (s.getV x)) (originRow (s.getV y)) (s.bytesAtI n.toNat) = spriteAt s x y n := by
  funext c r
  have hlen : (s.bytesAtI n.toNat).length = n.toNat := by simp [State.bytesAtI]
  simp only [spriteBits, spriteAt, originColumn, originRow, Config.fbWidth, Config.fbHeight, hlen]
  by_cases h : (s.getV x).toNat % 64 ≤ c ∧ c < (s.getV x).toNat % 64 + 8 ∧
      (s.getV y).toNat % 32 ≤ r ∧ r < (s.getV y).toNat % 32 + n.toNat
  · have hrow : r - (s.getV y).toNat % 32 < n.toNat := by omega
    have hbyte : (s.bytesAtI n.toNat).getD (r - (s.getV y).toNat % 32) 0#8 =
        Memory.get s.mem (s.i.toNat + (r - (s.getV y).toNat % 32)) := by
      simp [State.bytesAtI, List.getD, hrow]
    rw [hbyte]
    rfl
  · simp only [decide_eq_false h, Bool.false_and]

theorem drawn_spec : DrawSpec (spriteAt s x y n) s.fb (drawn x y n s).1 false (drawn x y n s).2 := by
  rw [← spriteBits_eq_spriteAt]
  exact drawRows_spec _ _ _ (s.fb, false)

theorem drawn_hit_iff : (drawn x y n s).2 = true ↔ SpriteHits s x y n :=
  (drawn_spec x y n s).2.trans (or_iff_right Bool.false_ne_true)

theorem bool01_of_hit (h : SpriteHits s x y n) : bool01 (drawn x y n s).2 = 1#8 := by
  rw [(drawn_hit_iff x y n s).mpr h]
  rfl

theorem bool01_of_not_hit (h : ¬SpriteHits s x y n) : bool01 (drawn x y n s).2 = 0#8 := by
  rw [Bool.eq_false_iff.mpr fun hit => h ((drawn_hit_iff x y n s).mp hit)]
  rfl

end Draw

end Machine

/-- Settles O42: the draw has its effect, which is what the loop draws and the flag, or the range check raises. -/
theorem drawResult : Obligations.DrawResult := by
  intro x y n s
  constructor
  · intro hfits
    have hflag := State.getV_setV_self (s.setFb (drawn x y n s).1) regF (bool01 (drawn x y n s).2)
    exact ⟨_, exec_of_errorOf_none (if_neg (by omega)), (drawn_spec x y n s).1,
      fun h => hflag.trans (bool01_of_hit x y n s h), fun h => hflag.trans (bool01_of_not_hit x y n s h),
      sameRegsBut_setV regF _ (s.setFb (drawn x y n s).1), ⟨rfl, rfl, ⟨rfl, rfl⟩, ⟨rfl, rfl⟩, fun _ => rfl, rfl, rfl⟩, rfl⟩
  · exact fun hn hrange => ⟨_, exec_of_errorOf_some (if_pos ⟨hn, by omega⟩), rfl⟩

namespace Machine

/-! ### Two draws at one origin (R106) -/

/-- The sprite is read from I and memory alone, at the wrapped origin. -/
theorem spriteAt_congr {s t : State} {x y : Reg} (n : Nibble) (hx : (t.getV x).toNat % 64 = (s.getV x).toNat % 64)
    (hy : (t.getV y).toNat % 32 = (s.getV y).toNat % 32) (hi : t.i = s.i) (hmem : SameMemory s t) (c r : Nat) :
    spriteAt t x y n c r = spriteAt s x y n c r := by
  simp only [spriteAt, hx, hy, hi, hmem _]

/-- Over a screen that the first draw has inverted, the sprite hits exactly where the first draw turned a pixel on. -/
theorem spriteHits_iff_turnsOn {s t : State} {x y : Reg} {n : Nibble}
    (hsprite : ∀ c r, spriteAt t x y n c r = spriteAt s x y n c r)
    (hfb : ∀ c r, c < 64 → r < 32 → Framebuffer.get t.fb c r = Bool.xor (Framebuffer.get s.fb c r) (spriteAt s x y n c r)) :
    SpriteHits t x y n ↔ SpriteTurnsOn s x y n := by
  refine exists_congr fun c => exists_congr fun r => and_congr_right fun hc => and_congr_right fun hr => ?_
  rw [hsprite, hfb c r hc hr]
  refine and_congr_right fun hbit => ?_
  rw [hbit, Bool.xor_true, Bool.not_eq_true']

end Machine

/-- Settles O43: the second draw inverts the pixels that the first inverted, and hits where the first turned one on. -/
theorem drawTwiceRestoresScreen : Obligations.DrawTwiceRestoresScreen := by
  intro x y n s t u hfits hst hx hy htu
  obtain ⟨t', ht', hfb, -, -, -, ⟨hi, -, -, -, hmem, -, -⟩, -⟩ := (drawResult x y n s).1 hfits
  obtain rfl := Host.Outcome.next.inj (hst.symm.trans ht')
  obtain ⟨u', hu', hfb', hhit, hnohit, -⟩ := (drawResult x y n t).1 (by rwa [hi])
  obtain rfl := Host.Outcome.next.inj (htu.symm.trans hu')
  have hsprite := spriteAt_congr n hx hy hi hmem
  have hiff := spriteHits_iff_turnsOn hsprite hfb
  refine ⟨Framebuffer.ext_get _ _ fun c r hc hr => ?_, fun h => hhit (hiff.mpr h), fun h => hnohit fun h' => h (hiff.mp h')⟩
  rw [hfb' c r hc hr, hsprite, hfb c r hc hr, Bool.xor_assoc, Bool.xor_self, Bool.xor_false]

namespace Machine

/-- The machine at creation with I at the first glyph and every pixel set. -/
def litState : State := (State.reset.setI 0x050#16).setFb (Vector.replicate 64 (Vector.replicate 32 true))

theorem get_litState {c r : Nat} (hc : c < 64) (hr : r < 32) : Framebuffer.get litState.fb c r = true := by
  simp [litState, Framebuffer.get, hc, hr]

theorem litState_sprite_visible : SpriteVisible litState 0x0#4 0x1#4 0x1#4 :=
  ⟨0, 0, by decide, by decide, by decide⟩

theorem litState_sprite_turns_none_on : ¬SpriteTurnsOn litState 0x0#4 0x1#4 0x1#4 := by
  rintro ⟨c, r, hc, hr, -, hunset⟩
  rw [get_litState hc hr] at hunset
  cases hunset

end Machine

/-- Refutes O44: over a screen that is set everywhere, the first row of the glyph of 0 is visible, but the second draw turns its pixels
on again and VF is 0. -/
theorem not_secondDrawFlagAsR106Words : ¬ Obligations.SecondDrawFlagAsR106Words := by
  intro h
  have hfits : (0x1#4).toNat = 0 ∨ litState.i.toNat + (0x1#4).toNat - 1 ≤ 0xFFF := .inr (by decide)
  obtain ⟨t, ht, -, -, -, hregs, ⟨hi, -⟩, -⟩ := (drawResult 0x0#4 0x1#4 0x1#4 litState).1 hfits
  obtain ⟨u, hu, -⟩ := (drawResult 0x0#4 0x1#4 0x1#4 t).1 (by rwa [hi])
  have hx : (t.getV 0x0#4).toNat % 64 = (litState.getV 0x0#4).toNat % 64 := by rw [hregs 0x0#4 (by decide)]
  have hy : (t.getV 0x1#4).toNat % 32 = (litState.getV 0x1#4).toNat % 32 := by rw [hregs 0x1#4 (by decide)]
  have hset : u.getV 0xF#4 = 1#8 := (h _ _ _ _ t u hfits ht hx hy hu).mpr litState_sprite_visible
  obtain ⟨-, -, hnone⟩ := drawTwiceRestoresScreen _ _ _ _ t u hfits ht hx hy hu
  have hunset : u.getV 0xF#4 = 0#8 := hnone litState_sprite_turns_none_on
  rw [hset] at hunset
  exact absurd hunset (by decide)

end Sys2Proof
end

section
/-! PROOFS. The keypad (45_keys_timers.md R107 to R110), the ticker (60_exceptions.md R126), and the host's session (R131, R132,
70_reset_and_hazards.md R141). -/

namespace Sys2Proof

namespace Machine

/-! ### Key lookup -/

theorem State.keyNat_of_lt (s : State) {k : Nat} (h : k < 16) : s.keyNat k = s.key[k]'h := dif_pos h

theorem State.keyAt_of_ge (s : State) {b : Byte} (h : 16 ≤ b.toNat) : s.keyAt b = false := dif_neg (Nat.not_lt_of_le h)

/-- The least pressed key is found (R110). -/
theorem State.firstKey_eq_some {s : State} {k : Nat} (h : k < 16) (hk : s.key[k]'h = true)
    (hleast : ∀ (j : Nat) (hj : j < k), s.key[j]'(Nat.lt_trans hj h) = false) : s.firstKey = some k := by
  rw [State.firstKey, List.find?_range_eq_some]
  refine ⟨(s.keyNat_of_lt h).trans hk, List.mem_range.mpr h, fun j hj => ?_⟩
  rw [s.keyNat_of_lt (Nat.lt_trans hj h), hleast j hj]
  rfl

theorem State.firstKey_eq_none {s : State} (h : ∀ (k : Nat) (hk : k < 16), s.key[k]'hk = false) : s.firstKey = none := by
  rw [State.firstKey, List.find?_range_eq_none]
  intro k hk
  rw [s.keyNat_of_lt hk, h k hk]
  rfl

end Machine

open Machine

/-- Settles O45: each is a skip on the key lookup, which is false above 15. -/
theorem keySkips : Obligations.KeySkips := by
  intro x s
  have hpressed (h : (s.getV x).toNat < 16) : s.keyAt (s.getV x) = s.key[(s.getV x).toNat]'h := s.keyNat_of_lt h
  constructor
  · obtain ⟨t, ht, hpc, hframe⟩ := skipIf_result (s := s) (cond := s.keyAt (s.getV x)) Iff.rfl
    exact ⟨t, ht, fun h => by rw [hpc, hpressed h], fun h => by rw [hpc, s.keyAt_of_ge h]; rfl, hframe⟩
  · obtain ⟨t, ht, hpc, hframe⟩ :=
      skipIf_not_result (s := s) (cond := !s.keyAt (s.getV x)) (p := s.keyAt (s.getV x) = true) (by simp)
    exact ⟨t, ht, fun h => by rw [hpc, hpressed h], fun h => by rw [hpc, s.keyAt_of_ge h]; rfl, hframe⟩

/-- Settles O46: the least pressed key is one register write, and no key is one write of PC. -/
theorem waitForKeyResult : Obligations.WaitForKeyResult := by
  intro x s
  have hexec : exec (.ldVxK x) s = .next ((s.keyTaken x).setResult .ok) := execLdVxK_eq_keyTaken x s
  constructor
  · intro k h hk hleast
    rw [hexec, State.keyTaken_of_some x (State.firstKey_eq_some h hk hleast)]
    refine ⟨_, rfl, ?_, sameRegsBut_setV x (BitVec.ofNat 8 k) s, sameButRegs_setV x (BitVec.ofNat 8 k) s, rfl⟩
    rw [State.getV_setResult, State.getV_setV_self, BitVec.toNat_ofNat]
    omega
  · intro hnone
    rw [hexec, State.keyTaken_of_none x (State.firstKey_eq_none hnone)]
    exact ⟨_, rfl, rfl, sameButPc_setPc _ _ s, rfl⟩

/-! ### The ticker -/

theorem Machine.tickTimer_toNat (b : Byte) : (tickTimer b).toNat = b.toNat - 1 := by
  unfold tickTimer
  split_ifs with h <;> bv_omega

/-- Settles O48, by induction on the number of ticks: one more tick takes one more from each timer. -/
theorem ticksCountDownToZero : Obligations.TicksCountDownToZero := by
  intro n s
  induction n with
  | zero => exact ⟨rfl, rfl, sameButTimers_set s.dt s.st s.lastResult s, rfl⟩
  | succ n ih =>
    obtain ⟨hdt, hst, hframe, hresult⟩ := ih
    rw [Function.iterate_succ_apply']
    refine ⟨?_, ?_, hframe, hresult⟩
    · exact (tickTimer_toNat _).trans (by omega)
    · exact (tickTimer_toNat _).trans (by omega)

/-! ### The session -/

/-- A load that succeeds before the first step leaves the session loaded. -/
theorem Machine.Session.apply_load_of_ok {s t : State} {rom : List Byte} (h : s.loadRom rom = .ok t) :
    (Session.mk s .fresh).apply (.load rom) = .next (Session.mk t .loaded, .loadOk) := by
  simp only [Session.apply, Session.load, h]

/-- Settles O50: the load's two answers in a fresh session, its refusal in the other phases, and the step's reply. -/
theorem sessionLoadsAtMostOnce : Obligations.SessionLoadsAtMostOnce := by
  refine ⟨fun m rom h => Session.apply_load_of_error (m.loadRom_error h), fun m rom h => ?_, fun _ _ => rfl, fun _ _ => rfl,
    fun c d r h => ?_⟩
  · exact ⟨_, Session.apply_load_of_ok (m.loadRom_ok h)⟩
  · obtain ⟨t, -, rfl, rfl⟩ := Session.step_cases h
    exact ⟨rfl, rfl⟩

/-- Settles O51: a key below 16 is one write of the key array, and any other number is refused. -/
theorem setKeyChangesOneKey : Obligations.SetKeyChangesOneKey := by
  intro c k b
  constructor
  · intro hk
    have hset : c.machine.setKey k b = { c.machine with key := c.machine.key.set k b hk } := dif_pos hk
    refine ⟨_, if_pos hk, rfl, fun j hj => ?_, ?_⟩
    · simp only [hset, Vector.getElem_set]
      simp only [eq_comm]
    · simp only [hset]
  · exact fun hk => if_neg (Nat.not_lt_of_le hk)

end Sys2Proof
end
